-- ==== Sys2Proof/Word.lean ====
section
/-! DEFINITION. The word types of the machine and their plainest arithmetic (00_scope.md R7, R8). -/

namespace Sys2Proof

/-- An 8-bit unsigned value: a general register, a timer, a memory cell (10_state.md R20, R28, R34). -/
abbrev Byte := BitVec 8

/-- A 16-bit unsigned value: the program counter, the index register, an instruction word, a saved program counter. -/
abbrev Word := BitVec 16

/-- A register number, the 4-bit index of one of `V0` to `VF` (10_state.md R20: every index names an existing register). -/
abbrev Reg := Fin 16

/-- `zext_16` of a byte (R8). -/
def zext16 (b : Byte) : Word := b.zeroExtend 16

/-- `zext_16` of a 12-bit address field (30_encoding.md R73). -/
def addr16 (nnn : BitVec 12) : Word := nnn.zeroExtend 16

end Sys2Proof
end

