-- ==== Sys2Proof/Syntax.lean ====
section
/-! DEFINITION. The 35 instructions (30_encoding.md R75), one constructor per row of spec/opcode_table.json. A constructor has
the operands its rule names ("Operands: …"). Nibbles the spec does not examine (R78) are no operands, so they are not kept. -/

namespace Sys2Proof

/-- The instruction set. `x` and `y` are the register numbers `X` and `Y`, `nn` the 8-bit immediate, `n` the row count,
`nnn` the 12-bit address. -/
inductive Instr where
  /-- `00E0` clear-screen (46_display.md R180). -/
  | clearScreen
  /-- `00EE` return (41_flow.md R120). -/
  | ret
  /-- `0NNN` call-legacy, a no-op; `NNN` is not `0E0` and not `0EE` (41_flow.md R121). -/
  | callLegacy (nnn : BitVec 12)
  /-- `1NNN` jump (R122). -/
  | jump (nnn : BitVec 12)
  /-- `2NNN` call (R123). -/
  | call (nnn : BitVec 12)
  /-- `3XNN` skip-if-equal-immediate (42_skips.md R130). -/
  | skipIfEqualImmediate (x : Reg) (nn : Byte)
  /-- `4XNN` skip-if-not-equal-immediate (R131). -/
  | skipIfNotEqualImmediate (x : Reg) (nn : Byte)
  /-- `5XY-` skip-if-registers-equal (R132). -/
  | skipIfRegistersEqual (x y : Reg)
  /-- `6XNN` set-immediate (43_alu.md R142). -/
  | setImmediate (x : Reg) (nn : Byte)
  /-- `7XNN` add-immediate (R143). -/
  | addImmediate (x : Reg) (nn : Byte)
  /-- `8XY0` set-register (R144). -/
  | setRegister (x y : Reg)
  /-- `8XY1` or (R145). -/
  | orRegisters (x y : Reg)
  /-- `8XY2` and (R146). -/
  | andRegisters (x y : Reg)
  /-- `8XY3` xor (R147). -/
  | xorRegisters (x y : Reg)
  /-- `8XY4` add-registers (R148). -/
  | addRegisters (x y : Reg)
  /-- `8XY5` sub-registers (R149). -/
  | subRegisters (x y : Reg)
  /-- `8X-6` shift-right (R150). -/
  | shiftRight (x : Reg)
  /-- `8XY7` sub-registers-reversed (R151). -/
  | subRegistersReversed (x y : Reg)
  /-- `8X-E` shift-left (R152). -/
  | shiftLeft (x : Reg)
  /-- `9XY-` skip-if-registers-not-equal (42_skips.md R133). -/
  | skipIfRegistersNotEqual (x y : Reg)
  /-- `ANNN` set-index (44_index_memory.md R160). -/
  | setIndex (nnn : BitVec 12)
  /-- `BNNN` jump-with-offset (41_flow.md R124). -/
  | jumpWithOffset (nnn : BitVec 12)
  /-- `CXNN` random-and (43_alu.md R154). -/
  | randomAnd (x : Reg) (nn : Byte)
  /-- `DXYN` draw-sprite (46_display.md R181). -/
  | drawSprite (x y : Reg) (n : Fin 16)
  /-- `EX9E` skip-if-key-pressed (42_skips.md R134). -/
  | skipIfKeyPressed (x : Reg)
  /-- `EXA1` skip-if-key-not-pressed (R135). -/
  | skipIfKeyNotPressed (x : Reg)
  /-- `FX07` read-delay-timer (45_timers_keys.md R170). -/
  | readDelayTimer (x : Reg)
  /-- `FX0A` wait-for-key (R173). -/
  | waitForKey (x : Reg)
  /-- `FX15` set-delay-timer (R171). -/
  | setDelayTimer (x : Reg)
  /-- `FX18` set-sound-timer (R172). -/
  | setSoundTimer (x : Reg)
  /-- `FX1E` add-to-index (44_index_memory.md R161). -/
  | addToIndex (x : Reg)
  /-- `FX29` set-index-to-sprite-char (R162). -/
  | setIndexToSpriteChar (x : Reg)
  /-- `FX33` store-bcd (R163). -/
  | storeBcd (x : Reg)
  /-- `FX55` register-dump (R164). -/
  | registerDump (x : Reg)
  /-- `FX65` register-load (R165). -/
  | registerLoad (x : Reg)
deriving DecidableEq, Repr

end Sys2Proof
end

