-- ==== Sys2Proof/WellFormed.lean ====
section
/-! DEFINITION. Which instruction terms stand for an encoding. The operand types already hold every field to its width; the
one further check is that a call-legacy term does not name the words of clear-screen and return (30_encoding.md R77, R82). -/

namespace Sys2Proof

/-- `NNN` of a call-legacy word: any 12-bit value but `0E0` and `0EE` (R77). -/
def legacyTarget (nnn : BitVec 12) : Bool := nnn != 0x0E0#12 && nnn != 0x0EE#12

/-- The term stands for at least one instruction word. -/
def Instr.wellFormed : Instr → Bool
  | .callLegacy nnn => legacyTarget nnn
  | .clearScreen | .ret | .jump _ | .call _ => true
  | .skipIfEqualImmediate _ _ | .skipIfNotEqualImmediate _ _ | .skipIfRegistersEqual _ _ => true
  | .setImmediate _ _ | .addImmediate _ _ | .setRegister _ _ => true
  | .orRegisters _ _ | .andRegisters _ _ | .xorRegisters _ _ => true
  | .addRegisters _ _ | .subRegisters _ _ | .shiftRight _ => true
  | .subRegistersReversed _ _ | .shiftLeft _ | .skipIfRegistersNotEqual _ _ => true
  | .setIndex _ | .jumpWithOffset _ | .randomAnd _ _ | .drawSprite _ _ _ => true
  | .skipIfKeyPressed _ | .skipIfKeyNotPressed _ | .readDelayTimer _ | .waitForKey _ => true
  | .setDelayTimer _ | .setSoundTimer _ | .addToIndex _ | .setIndexToSpriteChar _ => true
  | .storeBcd _ | .registerDump _ | .registerLoad _ => true

end Sys2Proof
end

