-- ==== Sys2Proof/Decode.lean ====
section
/-! DEFINITION. The decoder (30_encoding.md R70 to R82), total on any word and on any bytes and rejecting by name; after it
the encoder, and the rows of the spec's opcode table as masks. -/

namespace Sys2Proof

/-! ### The six fields of an instruction word (R71) -/

/-- `C = w[15:12]`, the class. -/
def opClass (w : Word) : Nat := (w.extractLsb' 12 4).toNat

/-- `X = w[11:8]`. -/
def fieldX (w : Word) : Reg := (w.extractLsb' 8 4).toFin

/-- `Y = w[7:4]`. -/
def fieldY (w : Word) : Reg := (w.extractLsb' 4 4).toFin

/-- `N = w[3:0]`. -/
def fieldN (w : Word) : Fin 16 := (w.extractLsb' 0 4).toFin

/-- `NN = w[7:0]`. -/
def fieldNN (w : Word) : Byte := w.extractLsb' 0 8

/-- `NNN = w[11:0]`. -/
def fieldNNN (w : Word) : BitVec 12 := w.extractLsb' 0 12

/-! ### Decoding -/

/-- Why bytes decode to no instruction. The first three are the unsupported words of R81, by class. -/
inductive Reject where
  /-- Class 8 with a low nibble of 8 to 13 or 15. -/
  | class8 (w : Word)
  /-- Class 14 with a low byte other than `9E` and `A1`. -/
  | class14 (w : Word)
  /-- Class 15 with a low byte that is none of the nine. -/
  | class15 (w : Word)
  /-- Fewer than two bytes: every instruction is two bytes long (R70). -/
  | tooShort
deriving DecidableEq, Repr

/-- Class 0: all 12 low bits are compared (R77). -/
def decodeClass0 (w : Word) : Instr :=
  if fieldNNN w = 0x0E0#12 then .clearScreen
  else if fieldNNN w = 0x0EE#12 then .ret
  else .callLegacy (fieldNNN w)

/-- Class 8: the low nibble selects (R77). -/
def decodeClass8 (w : Word) : Except Reject Instr :=
  match (fieldN w).val with
  | 0x0 => .ok (.setRegister (fieldX w) (fieldY w))
  | 0x1 => .ok (.orRegisters (fieldX w) (fieldY w))
  | 0x2 => .ok (.andRegisters (fieldX w) (fieldY w))
  | 0x3 => .ok (.xorRegisters (fieldX w) (fieldY w))
  | 0x4 => .ok (.addRegisters (fieldX w) (fieldY w))
  | 0x5 => .ok (.subRegisters (fieldX w) (fieldY w))
  | 0x6 => .ok (.shiftRight (fieldX w))
  | 0x7 => .ok (.subRegistersReversed (fieldX w) (fieldY w))
  | 0xE => .ok (.shiftLeft (fieldX w))
  | _ => .error (.class8 w)

/-- Class 14: the low byte selects (R77). -/
def decodeClass14 (w : Word) : Except Reject Instr :=
  match (fieldNN w).toNat with
  | 0x9E => .ok (.skipIfKeyPressed (fieldX w))
  | 0xA1 => .ok (.skipIfKeyNotPressed (fieldX w))
  | _ => .error (.class14 w)

/-- Class 15: the low byte selects (R77). -/
def decodeClass15 (w : Word) : Except Reject Instr :=
  match (fieldNN w).toNat with
  | 0x07 => .ok (.readDelayTimer (fieldX w))
  | 0x0A => .ok (.waitForKey (fieldX w))
  | 0x15 => .ok (.setDelayTimer (fieldX w))
  | 0x18 => .ok (.setSoundTimer (fieldX w))
  | 0x1E => .ok (.addToIndex (fieldX w))
  | 0x29 => .ok (.setIndexToSpriteChar (fieldX w))
  | 0x33 => .ok (.storeBcd (fieldX w))
  | 0x55 => .ok (.registerDump (fieldX w))
  | 0x65 => .ok (.registerLoad (fieldX w))
  | _ => .error (.class15 w)

/-- The instruction an instruction word selects (R74 to R79). The last arm is class 15, the one value of four bits left. -/
def decodeWord (w : Word) : Except Reject Instr :=
  match opClass w with
  | 0x0 => .ok (decodeClass0 w)
  | 0x1 => .ok (.jump (fieldNNN w))
  | 0x2 => .ok (.call (fieldNNN w))
  | 0x3 => .ok (.skipIfEqualImmediate (fieldX w) (fieldNN w))
  | 0x4 => .ok (.skipIfNotEqualImmediate (fieldX w) (fieldNN w))
  | 0x5 => .ok (.skipIfRegistersEqual (fieldX w) (fieldY w))
  | 0x6 => .ok (.setImmediate (fieldX w) (fieldNN w))
  | 0x7 => .ok (.addImmediate (fieldX w) (fieldNN w))
  | 0x8 => decodeClass8 w
  | 0x9 => .ok (.skipIfRegistersNotEqual (fieldX w) (fieldY w))
  | 0xA => .ok (.setIndex (fieldNNN w))
  | 0xB => .ok (.jumpWithOffset (fieldNNN w))
  | 0xC => .ok (.randomAnd (fieldX w) (fieldNN w))
  | 0xD => .ok (.drawSprite (fieldX w) (fieldY w) (fieldN w))
  | 0xE => decodeClass14 w
  | _ => decodeClass15 w

/-- The word two consecutive bytes form: the byte at the lower address is the high byte (20_memory.md R52). -/
def wordOfBytes (hi lo : Byte) : Word := hi ++ lo

/-- The instruction at the head of a list of bytes in memory order, and the bytes after it (R70: always two bytes). -/
def decode : List Byte → Except Reject (Instr × List Byte)
  | hi :: lo :: rest =>
    match decodeWord (wordOfBytes hi lo) with
    | .ok i => .ok (i, rest)
    | .error r => .error r
  | _ => .error .tooShort

/-! ### Encoding -/

/-- The word whose four nibbles are given, the most significant first (R72). -/
def ofNibbles (c x y n : Nat) : Word := BitVec.ofNat 16 (c * 0x1000 + x * 0x100 + y * 0x10 + n)

/-- The format `NNN` (R72). -/
def packNNN (c : Nat) (nnn : BitVec 12) : Word := BitVec.ofNat 16 (c * 0x1000 + nnn.toNat)

/-- The formats `XNN` and `X` (R72), the latter with a fixed low byte. -/
def packXNN (c : Nat) (x : Reg) (nn : Byte) : Word := BitVec.ofNat 16 (c * 0x1000 + x.val * 0x100 + nn.toNat)

/-- The formats `XY` and `XYN` (R72). -/
def packXYN (c : Nat) (x y : Reg) (n : Nat) : Word := ofNibbles c x.val y.val n

/-- The canonical word of an instruction (R75, R85): nibbles that are not examined are 0. -/
def encode : Instr → Word
  | .clearScreen => 0x00E0#16
  | .ret => 0x00EE#16
  | .callLegacy nnn => packNNN 0x0 nnn
  | .jump nnn => packNNN 0x1 nnn
  | .call nnn => packNNN 0x2 nnn
  | .skipIfEqualImmediate x nn => packXNN 0x3 x nn
  | .skipIfNotEqualImmediate x nn => packXNN 0x4 x nn
  | .skipIfRegistersEqual x y => packXYN 0x5 x y 0
  | .setImmediate x nn => packXNN 0x6 x nn
  | .addImmediate x nn => packXNN 0x7 x nn
  | .setRegister x y => packXYN 0x8 x y 0x0
  | .orRegisters x y => packXYN 0x8 x y 0x1
  | .andRegisters x y => packXYN 0x8 x y 0x2
  | .xorRegisters x y => packXYN 0x8 x y 0x3
  | .addRegisters x y => packXYN 0x8 x y 0x4
  | .subRegisters x y => packXYN 0x8 x y 0x5
  | .shiftRight x => packXYN 0x8 x 0 0x6
  | .subRegistersReversed x y => packXYN 0x8 x y 0x7
  | .shiftLeft x => packXYN 0x8 x 0 0xE
  | .skipIfRegistersNotEqual x y => packXYN 0x9 x y 0
  | .setIndex nnn => packNNN 0xA nnn
  | .jumpWithOffset nnn => packNNN 0xB nnn
  | .randomAnd x nn => packXNN 0xC x nn
  | .drawSprite x y n => packXYN 0xD x y n.val
  | .skipIfKeyPressed x => packXNN 0xE x 0x9E
  | .skipIfKeyNotPressed x => packXNN 0xE x 0xA1
  | .readDelayTimer x => packXNN 0xF x 0x07
  | .waitForKey x => packXNN 0xF x 0x0A
  | .setDelayTimer x => packXNN 0xF x 0x15
  | .setSoundTimer x => packXNN 0xF x 0x18
  | .addToIndex x => packXNN 0xF x 0x1E
  | .setIndexToSpriteChar x => packXNN 0xF x 0x29
  | .storeBcd x => packXNN 0xF x 0x33
  | .registerDump x => packXNN 0xF x 0x55
  | .registerLoad x => packXNN 0xF x 0x65

/-- The high and the low byte of a word (20_memory.md R52). -/
def highByte (w : Word) : Byte := w.extractLsb' 8 8

/-- The low byte of a word. -/
def lowByte (w : Word) : Byte := w.extractLsb' 0 8

/-- The two bytes of an instruction in memory order. -/
def encodeBytes (i : Instr) : List Byte := [highByte (encode i), lowByte (encode i)]

/-! ### The rows of spec/opcode_table.json (R79) -/

/-- The row's `mask`: the bits that select the instruction. -/
def Instr.tableMask : Instr → Word
  | .clearScreen | .ret => 0xFFFF#16
  | .callLegacy _ | .jump _ | .call _ => 0xF000#16
  | .skipIfEqualImmediate _ _ | .skipIfNotEqualImmediate _ _ | .skipIfRegistersEqual _ _ => 0xF000#16
  | .setImmediate _ _ | .addImmediate _ _ => 0xF000#16
  | .setRegister _ _ | .orRegisters _ _ | .andRegisters _ _ | .xorRegisters _ _ => 0xF00F#16
  | .addRegisters _ _ | .subRegisters _ _ | .shiftRight _ => 0xF00F#16
  | .subRegistersReversed _ _ | .shiftLeft _ => 0xF00F#16
  | .skipIfRegistersNotEqual _ _ | .setIndex _ | .jumpWithOffset _ => 0xF000#16
  | .randomAnd _ _ | .drawSprite _ _ _ => 0xF000#16
  | .skipIfKeyPressed _ | .skipIfKeyNotPressed _ | .readDelayTimer _ | .waitForKey _ => 0xF0FF#16
  | .setDelayTimer _ | .setSoundTimer _ | .addToIndex _ | .setIndexToSpriteChar _ => 0xF0FF#16
  | .storeBcd _ | .registerDump _ | .registerLoad _ => 0xF0FF#16

/-- The row's `match`: what the selecting bits are. -/
def Instr.tableMatch : Instr → Word
  | .clearScreen => 0x00E0#16
  | .ret => 0x00EE#16
  | .callLegacy _ => 0x0000#16
  | .jump _ => 0x1000#16
  | .call _ => 0x2000#16
  | .skipIfEqualImmediate _ _ => 0x3000#16
  | .skipIfNotEqualImmediate _ _ => 0x4000#16
  | .skipIfRegistersEqual _ _ => 0x5000#16
  | .setImmediate _ _ => 0x6000#16
  | .addImmediate _ _ => 0x7000#16
  | .setRegister _ _ => 0x8000#16
  | .orRegisters _ _ => 0x8001#16
  | .andRegisters _ _ => 0x8002#16
  | .xorRegisters _ _ => 0x8003#16
  | .addRegisters _ _ => 0x8004#16
  | .subRegisters _ _ => 0x8005#16
  | .shiftRight _ => 0x8006#16
  | .subRegistersReversed _ _ => 0x8007#16
  | .shiftLeft _ => 0x800E#16
  | .skipIfRegistersNotEqual _ _ => 0x9000#16
  | .setIndex _ => 0xA000#16
  | .jumpWithOffset _ => 0xB000#16
  | .randomAnd _ _ => 0xC000#16
  | .drawSprite _ _ _ => 0xD000#16
  | .skipIfKeyPressed _ => 0xE09E#16
  | .skipIfKeyNotPressed _ => 0xE0A1#16
  | .readDelayTimer _ => 0xF007#16
  | .waitForKey _ => 0xF00A#16
  | .setDelayTimer _ => 0xF015#16
  | .setSoundTimer _ => 0xF018#16
  | .addToIndex _ => 0xF01E#16
  | .setIndexToSpriteChar _ => 0xF029#16
  | .storeBcd _ => 0xF033#16
  | .registerDump _ => 0xF055#16
  | .registerLoad _ => 0xF065#16

/-- The bits of a word that the instruction examines: its selecting bits and its operands, all but the nibbles of R78. -/
def Instr.examined : Instr → Word
  | .skipIfRegistersEqual _ _ | .skipIfRegistersNotEqual _ _ => 0xFFF0#16
  | .shiftRight _ | .shiftLeft _ => 0xFF0F#16
  | .clearScreen | .ret | .callLegacy _ | .jump _ | .call _ => 0xFFFF#16
  | .skipIfEqualImmediate _ _ | .skipIfNotEqualImmediate _ _ => 0xFFFF#16
  | .setImmediate _ _ | .addImmediate _ _ | .setRegister _ _ => 0xFFFF#16
  | .orRegisters _ _ | .andRegisters _ _ | .xorRegisters _ _ => 0xFFFF#16
  | .addRegisters _ _ | .subRegisters _ _ | .subRegistersReversed _ _ => 0xFFFF#16
  | .setIndex _ | .jumpWithOffset _ | .randomAnd _ _ | .drawSprite _ _ _ => 0xFFFF#16
  | .skipIfKeyPressed _ | .skipIfKeyNotPressed _ | .readDelayTimer _ | .waitForKey _ => 0xFFFF#16
  | .setDelayTimer _ | .setSoundTimer _ | .addToIndex _ | .setIndexToSpriteChar _ => 0xFFFF#16
  | .storeBcd _ | .registerDump _ | .registerLoad _ => 0xFFFF#16

/-! ### The host's view -/

/-- The instruction the decoder reads from an instruction whose bits are `w` in the opcode table's numbering. The word is laid
out in memory, high byte first, and given to the decoder; no instruction is longer than 16 bits (R70). -/
def decodeTableWord (nbits w : Nat) : Option Instr :=
  if nbits ≤ 16 then
    let word : Word := BitVec.ofNat 16 (w % 2 ^ nbits)
    match decode [highByte word, lowByte word] with
    | .ok (i, _) => some i
    | .error _ => none
  else none

end Sys2Proof
end

