-- ==== Sys2Proof/Config.lean ====
section
/-! DEFINITION. What is fixed for the machine (00_scope.md R5), the values DRAW_EDGE may take (R6), the turns of the system, and
the free values: constants without a body, so that nothing can be proved about which value they have. -/

namespace Sys2Proof

/-- One turn of the system: a cycle of the core, or a move of an agent outside it (40_cycle.md R110, R111, R114). -/
inductive Turn where
  /-- One cycle of the core. -/
  | core
  /-- The timer driver's tick. -/
  | tick
  /-- The key source sets all 16 key states. -/
  | keys (ks : Vector Bool 16)
deriving DecidableEq, Repr

end Sys2Proof

namespace Sys2Proof.Config

/-- `MEM_SIZE`: memory is addressable 0 to 4095. -/
def memSize : Nat := 4096

/-- `LOAD_BASE`: where the program image starts and where `pc` stands after reset (10_state.md R41). -/
def loadBase : Nat := 0x200

/-- `ROM_MAX`: the longest image the loader may copy (70_reset_and_hazards.md R241). -/
def romMax : Nat := 3584

/-- What a cell that nothing has written reads as: the reset contents of memory (10_state.md R40: "all fields zeroed"). -/
def memDefault : Byte := 0

/-- `GLYPH_BYTES`: the size of a glyph in set-index-to-sprite-char (44_index_memory.md R162). -/
def glyphBytes : Nat := 5

/-- The number of the register that receives the flags, `FLAG_REG` (10_state.md R23). -/
def flagReg : Reg := 15

/-- `draw_8()`: the byte the random source gives to the n-th draw, any of 0 to 255 (40_cycle.md R112, 43_alu.md R154).
No body: a free value (log 2). -/
opaque randomByte : Nat → Byte

/-- Which member of a set of several pressed keys the n-th draw takes, counted modulo the size of the set
(00_scope.md R13 `draw_from`, 45_timers_keys.md R173). No body: a free value (log 3). -/
opaque keyDraw : Nat → Nat

/-- The turns that come before the core's next cycle in a free schedule, by the number of cycles it has given so far: any finite
number of them (40_cycle.md R110, R114). No body: a free value (log 4). -/
opaque turnsBefore : Nat → List Turn

end Sys2Proof.Config

namespace Sys2Proof

/-- The values of the parameter `DRAW_EDGE` (46_display.md R184). -/
inductive DrawEdge where
  /-- A target off the screen is the fault `DrawOutOfBounds`. -/
  | error
  /-- Targets off the screen are dropped. -/
  | clip
  /-- Targets wrap modulo 64 and 32. -/
  | wrap
deriving DecidableEq, Repr

end Sys2Proof
end

