-- ==== Sys2Proof/Machine/State.lean ====
section
/-! DEFINITION. The state of the machine (10_state.md), as plain data; the causes of a stop and the results of a cycle as
types; the machine right after reset (R40). -/

namespace Sys2Proof.Machine

/-- Memory, 4096 cells of 8 bits (R34): the cells that do not hold `Config.memDefault`, by rising address. -/
abbrev Memory := List Host.Cell

/-- The framebuffer (R35): 32 rows, the top row first; bit `x` of row `y` is the pixel `FB[x, y]` (log 13). -/
abbrev Framebuffer := Vector (BitVec 64) 32

/-- The run state (R31). -/
inductive RunState where
  /-- The next cycle fetches at `pc`. -/
  | running
  /-- A wait-for-key at `pc` found no key pressed; the next cycle polls the keys. -/
  | awaitingKey
  /-- A fault or an unsupported opcode ended the run. -/
  | stopped
deriving DecidableEq, Repr

/-- What an out-of-range address was for (60_exceptions.md R204). -/
inductive AccessKind where
  /-- The instruction fetch. -/
  | fetch
  /-- A data read. -/
  | read
  /-- A data write. -/
  | write
  /-- The sum of add-to-index. -/
  | index
deriving DecidableEq, Repr

/-- Why a cycle stops the machine (60_exceptions.md R200). -/
inductive Cause where
  /-- The fetched word selects no instruction (R201). -/
  | unsupportedOpcode
  /-- A call with 16 saved values (R202). -/
  | stackOverflow
  /-- A return with none (R203). -/
  | stackUnderflow
  /-- An address above 4095; `addr` is the lowest offending one (R204). -/
  | addressOutOfRange (kind : AccessKind) (addr : Nat)
  /-- A key skip with `V[X]` above 15 (R205). -/
  | keyIndexOutOfRange (index : Byte)
  /-- A set sprite bit off the screen under `DRAW_EDGE = error`, with the sprite's origin (R206). -/
  | drawOutOfBounds (vx vy : Byte)
deriving DecidableEq, Repr

/-- The diagnostic record (R33), field by field. -/
structure Diag where
  /-- 1 bit: something was latched. -/
  valid : Bool
  /-- The code of the cause (60_exceptions.md R200). -/
  cause : BitVec 3
  /-- The instruction word, 0 when the fetch itself faulted. -/
  word : Word
  /-- `pc0`. -/
  pc : Word
  /-- The access kind of an `AddressOutOfRange`, else 0. -/
  kind : BitVec 2
  /-- What the cause records. -/
  info : Word
deriving DecidableEq, Repr

/-- `diag` after reset (R33, R40). -/
def Diag.zero : Diag := { valid := false, cause := 0, word := 0, pc := 0, kind := 0, info := 0 }

/-- The result of a cycle (40_cycle.md R104). -/
inductive CycleResult where
  /-- One instruction was executed to completion. -/
  | completed
  /-- A wait-for-key found no key pressed. -/
  | notYetComplete
  /-- The word selects no instruction. -/
  | unsupported (word pc0 : Word)
  /-- A fatal fault: the code of the cause, the access kind and what the cause records. -/
  | fatal (cause : BitVec 3) (kind : BitVec 2) (info : Word)
deriving DecidableEq, Repr

/-- How the schedule goes on, without end, once its listed turns are over (40_cycle.md R114; log 4). -/
inductive Beyond where
  /-- The same turns before every further cycle of the core; with none of them the core is alone. -/
  | always (block : List Turn)
  /-- Before every further cycle of the core any finite number of turns, the next of them the free value number `n`. -/
  | free (n : Nat)
deriving DecidableEq, Repr

/-- The state. The fields down to `diag` are the spec's, the last four the model's own. -/
structure State where
  /-- The general registers `V[0]` to `V[15]` (R20). -/
  v : Vector Byte 16
  /-- The index register `I` (R26). -/
  i : Word
  /-- The program counter (R24). -/
  pc : Word
  /-- The call stack's 16 entries (R27). -/
  stack : Vector Word 16
  /-- The call stack's depth, 0 to 16 (R27). -/
  sp : Fin 17
  /-- The delay timer (R28). -/
  dt : Byte
  /-- The sound timer (R29). -/
  st : Byte
  /-- The key states, an input (R30). -/
  keys : Vector Bool 16
  /-- The framebuffer (R35). -/
  fb : Framebuffer
  /-- Memory (R34). -/
  mem : Memory
  /-- The run state (R31). -/
  run : RunState
  /-- The latch `wait_x` (R32). -/
  waitX : Reg
  /-- The diagnostic record (R33). -/
  diag : Diag
  /-- The parameter `DRAW_EDGE`, fixed for a run (R38; log 1). -/
  drawEdge : DrawEdge
  /-- How many free values have been drawn (00_scope.md R13; log 2). -/
  draws : Nat
  /-- The turns scheduled to come next (40_cycle.md R114; log 4). -/
  turns : List Turn
  /-- The turns after those (40_cycle.md R114; log 4). -/
  beyond : Beyond
deriving DecidableEq, Repr

/-- Reasons for the machine to stop outside the spec's own stop. There are none: every fault of the spec has an entry the spec
describes (60_exceptions.md R212), which is a next state (log 5). Nothing raises it; safe. -/
inductive Fault where
deriving DecidableEq, Repr

/-- Reasons for which the model gives no next state. -/
inductive Refusal where
  /-- An instruction whose meaning is not written yet; raised by `exec`'s arms, of which none is left. Safe: the run ends. -/
  | notModelled (mnemonic : String)
  /-- The loader was given an image longer than 3584 bytes (60_exceptions.md R207; log 10); raised by `State.loadImage` only.
  Safe: there is no launch state. -/
  | imageTooLong (length : Nat)
deriving DecidableEq, Repr

/-- The machine right after reset (R40, R41), before a program is loaded. -/
def State.reset : State where
  v := Vector.replicate 16 0
  i := 0
  pc := 0x200
  stack := Vector.replicate 16 0
  sp := 0
  dt := 0
  st := 0
  keys := Vector.replicate 16 false
  fb := Vector.replicate 32 0
  mem := []
  run := .running
  waitX := 0
  diag := Diag.zero
  drawEdge := .error
  draws := 0
  turns := []
  beyond := .always []

end Sys2Proof.Machine
end

