-- ==== Sys2Proof/Machine/Ops.lean ====
section
/-! DEFINITION. The named operations over registers, the call stack, memory, the framebuffer and the keys; the instruction
fetch; taking a fault, the machine's one exception entry (60_exceptions.md R212). The spec has no return from a fault (R215),
so no such operation exists. -/

namespace Sys2Proof.Machine

/-! ### Registers and the program counter -/

/-- `V[x]` (10_state.md R20). -/
def State.reg (s : State) (x : Reg) : Byte := s.v[x.val]

/-- `V[x] <- b`. -/
def State.setReg (s : State) (x : Reg) (b : Byte) : State := { s with v := s.v.set x.val b }

/-- `I <- w`. -/
def State.setIndex (s : State) (w : Word) : State := { s with i := w }

/-- `pc <- target` (00_scope.md R9). -/
def State.setPc (s : State) (target : Word) : State := { s with pc := target }

/-- `pc <- trunc_16(pc0 + 2)`: sequential execution (10_state.md R24). -/
def State.advance (s : State) : State := s.setPc (s.pc + 2)

/-- A skip: `pc0 + 4` when the condition holds, `pc0 + 2` otherwise (42_skips.md R129). -/
def State.skipWhen (s : State) (taken : Bool) : State := s.setPc (s.pc + if taken then 4 else 2)

/-! ### The call stack (10_state.md R27) -/

/-- `push(v)`. -/
def State.push (s : State) (w : Word) : Except Cause State :=
  if h : s.sp.val < 16 then
    .ok { s with stack := s.stack.set s.sp.val w, sp := ⟨s.sp.val + 1, by omega⟩ }
  else .error .stackOverflow

/-- `pop()`: the popped value and the state after. The entry above the new depth keeps its value, which no rule reads. -/
def State.pop (s : State) : Except Cause (Word × State) :=
  if h : 0 < s.sp.val then
    .ok (s.stack[s.sp.val - 1], { s with sp := ⟨s.sp.val - 1, by omega⟩ })
  else .error .stackUnderflow

/-! ### Memory (20_memory.md R50, R51) -/

/-- The byte at an address. -/
def Memory.read : Memory → Nat → Byte
  | [], _ => Config.memDefault
  | (k, b) :: m, a => if k = a then b else Memory.read m a

/-- The memory with one byte changed, in canonical form. -/
def Memory.write : Memory → Nat → Byte → Memory
  | [], a, b => if b = Config.memDefault then [] else [(a, b)]
  | (k, c) :: m, a, b =>
    if a < k then (if b = Config.memDefault then (k, c) :: m else (a, b) :: (k, c) :: m)
    else if a = k then (if b = Config.memDefault then m else (a, b) :: m)
    else (k, c) :: Memory.write m a b

/-- Canonical from address `lo` on: addresses rise strictly, lie in the address space, and no entry is the default. -/
def Memory.wfFrom : Nat → Memory → Bool
  | _, [] => true
  | lo, (k, b) :: m => decide (lo ≤ k) && decide (k < Config.memSize) && (b != Config.memDefault) && Memory.wfFrom (k + 1) m

/-- The memory is in its one canonical form. -/
def Memory.wf (m : Memory) : Bool := Memory.wfFrom 0 m

/-- `n` bytes from address `a` upward. -/
def Memory.readBytes (m : Memory) (a : Nat) : Nat → List Byte
  | 0 => []
  | n + 1 => m.read a :: Memory.readBytes m (a + 1) n

/-- Bytes stored one after another from address `a` upward, in ascending order. -/
def Memory.writeBytes (m : Memory) (a : Nat) : List Byte → Memory
  | [] => m
  | b :: bs => Memory.writeBytes (m.write a b) (a + 1) bs

/-- The bounds check of an access to `n` bytes from `addr` upward (R50, R51, R62): the highest address is compared with 4095,
and the cause names the lowest address above it. An access to no byte has no check (46_display.md R183). -/
def rangeCause (kind : AccessKind) (addr n : Nat) : Option Cause :=
  if n ≠ 0 ∧ Config.memSize ≤ addr + n - 1 then some (.addressOutOfRange kind (max addr Config.memSize)) else none

/-- The effect of an instruction whose accesses pass their check, or the cause if they do not (R62). -/
def whenInRange (kind : AccessKind) (addr n : Nat) (effect : State) : Except Cause State :=
  match rangeCause kind addr n with
  | some c => .error c
  | none => .ok effect

/-- Bytes stored from address `a` upward. -/
def State.storeBytes (s : State) (a : Nat) (bs : List Byte) : State := { s with mem := s.mem.writeBytes a bs }

/-- `V[k] <- memory[a + k]` for the given registers, one after another. -/
def State.loadRegs (s : State) (a : Nat) : List Reg → State
  | [] => s
  | k :: ks => State.loadRegs (s.setReg k (s.mem.read (a + k.val))) a ks

/-- The instruction fetch (R56): two bytes at `pc`, the lower address in the high half (R52). -/
def State.fetch (s : State) : Except Cause Word :=
  match rangeCause .fetch s.pc.toNat 2 with
  | some c => .error c
  | none => .ok (wordOfBytes (s.mem.read s.pc.toNat) (s.mem.read (s.pc.toNat + 1)))

/-- An instruction word placed where the next cycle fetches. A `pc` at which no fetch can succeed is first moved to the load
base; the machine is made to run, and to run next (log 9). -/
def State.placeWord (s : State) (w : Word) : State :=
  let at_ : Word := if s.pc.toNat + 1 < Config.memSize then s.pc else BitVec.ofNat 16 Config.loadBase
  { s with pc := at_, run := .running, turns := [], beyond := .always [],
           mem := s.mem.writeBytes at_.toNat [highByte w, lowByte w] }

/-! ### The framebuffer (10_state.md R35, R36) -/

/-- A cell of the framebuffer: column 0 to 63, row 0 to 31. -/
abbrev Pixel := Fin 64 × Fin 32

/-- `FB[x, y]`. -/
def Framebuffer.pixel (fb : Framebuffer) (p : Pixel) : Bool := fb[p.2.val].getLsbD p.1.val

/-- `FB[x, y] <- FB[x, y] xor 1`. -/
def Framebuffer.toggle (fb : Framebuffer) (p : Pixel) : Framebuffer :=
  fb.set p.2.val (fb[p.2.val] ^^^ BitVec.twoPow 64 p.1.val)

/-- The framebuffer with every cell 0. -/
def Framebuffer.clear : Framebuffer := Vector.replicate 32 0

/-- The flattened cell number of a pixel, `64 * y + x` (R36). -/
def cellNumber (p : Pixel) : Nat := 64 * p.2.val + p.1.val

/-- The framebuffer as the renderer's 2048 cells (R36, R39). -/
def Framebuffer.cell (fb : Framebuffer) (k : Fin 2048) : Bool :=
  fb.pixel (⟨k.val % 64, by omega⟩, ⟨k.val / 64, by omega⟩)

/-! ### Keys (10_state.md R30) -/

/-- `keys[k]`. -/
def State.key (s : State) (k : Reg) : Bool := s.keys[k.val]

/-- `keys[k]` for a register's value, which must be 0 to 15 (42_skips.md R134). -/
def State.keyAt (s : State) (k : Byte) : Except Cause Bool :=
  if h : k.toNat < 16 then .ok (s.key ⟨k.toNat, h⟩) else .error (.keyIndexOutOfRange k)

/-- The set `P` of pressed keys (45_timers_keys.md R173), in rising order. -/
def State.pressedKeys (s : State) : List Reg := (List.finRange 16).filter fun k => s.key k

/-- `draw_from`: a member of the set that consists of `k` and `ks`, which one of several being free (00_scope.md R13; log 3). -/
def drawFrom (n : Nat) (k : Reg) (ks : List Reg) : Reg :=
  match ks with
  | [] => k
  | k' :: ks' => (k :: k' :: ks').getD (Config.keyDraw n % (ks'.length + 2)) k

/-! ### Taking a fault (60_exceptions.md R200, R212) -/

/-- The code of an access kind (R200). -/
def AccessKind.code : AccessKind → BitVec 2
  | .fetch => 0
  | .read => 1
  | .write => 2
  | .index => 3

/-- The code of a cause (R200). -/
def Cause.code : Cause → BitVec 3
  | .unsupportedOpcode => 1
  | .stackOverflow => 2
  | .stackUnderflow => 3
  | .addressOutOfRange _ _ => 4
  | .keyIndexOutOfRange _ => 5
  | .drawOutOfBounds _ _ => 6

/-- `diag.kind` of a cause (R200). -/
def Cause.kindCode : Cause → BitVec 2
  | .addressOutOfRange k _ => k.code
  | .unsupportedOpcode | .stackOverflow | .stackUnderflow | .keyIndexOutOfRange _ | .drawOutOfBounds _ _ => 0

/-- `diag.info` of a cause (R200). -/
def Cause.info : Cause → Word
  | .addressOutOfRange _ a => BitVec.ofNat 16 a
  | .keyIndexOutOfRange k => zext16 k
  | .drawOutOfBounds vx vy => vx ++ vy
  | .unsupportedOpcode | .stackOverflow | .stackUnderflow => 0

/-- The record a cause latches (R200). -/
def Cause.record (c : Cause) (word pc0 : Word) : Diag :=
  { valid := true, cause := c.code, word := word, pc := pc0, kind := c.kindCode, info := c.info }

/-- `raise` (R212): `pc` keeps `pc0`, `diag` is latched, the machine stops, and nothing else changes. -/
def State.raise (s : State) (word : Word) (c : Cause) : State :=
  { s with run := .stopped, diag := c.record word s.pc }

/-- The end of an instruction that may fault: the state its effect gives, or the fault taken from the state before it. -/
def State.orRaise (s : State) (word : Word) (r : Except Cause State) : Host.Outcome State Fault Refusal :=
  match r with
  | .ok t => .next t
  | .error c => .next (s.raise word c)

/-- The result of the last cycle (40_cycle.md R101, R104), read off the state it left (log 6). -/
def State.result (s : State) : CycleResult :=
  match s.run with
  | .running => .completed
  | .awaitingKey => .notYetComplete
  | .stopped =>
    if s.diag.cause = Cause.code .unsupportedOpcode then .unsupported s.diag.word s.diag.pc
    else .fatal s.diag.cause s.diag.kind s.diag.info

end Sys2Proof.Machine
end

