-- ==== Sys2Proof/Machine/Agents.lean ====
section
/-! DEFINITION. The moves of the agents outside the core: the timer driver, the key source and the loader (40_cycle.md R110,
R111; 70_reset_and_hazards.md R241). -/

namespace Sys2Proof.Machine

/-- A countdown: one less, and 0 stays 0 (R110). -/
def countDown (t : Byte) : Byte := if t = 0 then 0 else t - 1

/-- The timer driver's `tick` (R110): both timers, whatever the run state. -/
def State.tick (s : State) : State := { s with dt := countDown s.dt, st := countDown s.st }

/-- The key source's move (R111). -/
def State.setKeys (s : State) (ks : Vector Bool 16) : State := { s with keys := ks }

/-- The loader's move (R241): the image, byte for byte, from the load base upward. An image longer than 3584 bytes is the
loader's to reject (60_exceptions.md R207) and is refused by name. -/
def State.loadImage (image : List Byte) (s : State) : Host.Outcome State Fault Refusal :=
  if image.length ≤ Config.romMax then .next (s.storeBytes Config.loadBase image)
  else .refused (.imageTooLong image.length)

end Sys2Proof.Machine
end

