-- ==== Sys2Proof/Machine/Flags.lean ====
section
/-! DEFINITION. Every flag computation of the spec: the value `V[15]` receives (10_state.md R23; 43_alu.md R140, R148 to R152),
and the order in which a flag-writing instruction writes (R141). The sixth flag, draw-sprite's collision, is computed with the
drawing in Display.lean. -/

namespace Sys2Proof.Machine

/-- A flag as the byte written to `VF`: 0 or 1 and never another value (R23). -/
def flagByte (f : Bool) : Byte := if f then 1 else 0

/-- Carry of `a + b`: 1 exactly when the sum exceeds 255 (R140, R148). -/
def carryOut (a b : Byte) : Bool := decide (255 < a.toNat + b.toNat)

/-- No borrow of `a - b`: 1 exactly when `a >= b` (R140, R149). -/
def noBorrow (a b : Byte) : Bool := decide (b.toNat ≤ a.toNat)

/-- The bit a shift to the right moves out: bit 0 (R150). -/
def shiftedOutLow (a : Byte) : Bool := a.getLsbD 0

/-- The bit a shift to the left moves out: bit 7 (R152). -/
def shiftedOutHigh (a : Byte) : Bool := a.getLsbD 7

/-- `V[15] <- flag`. -/
def State.setFlag (s : State) (f : Bool) : State := s.setReg Config.flagReg (flagByte f)

/-- The end of a flag-writing instruction: the result first, the flag last (R141). -/
def State.setResultAndFlag (s : State) (x : Reg) (result : Byte) (f : Bool) : State := (s.setReg x result).setFlag f

end Sys2Proof.Machine
end

