-- ==== Sys2Proof/Machine/Operands.lean ====
section
/-! DEFINITION. The operand forms. A register operand is `State.reg`, an immediate is the field as it stands (30_encoding.md
R73); here are the operands that are computed: addresses from `I`, the targets of jumps, decimal digits, register ranges. -/

namespace Sys2Proof.Machine

/-- `I` as the natural number addresses are formed from (44_index_memory.md: never reduced modulo anything). -/
def State.index (s : State) : Nat := s.i.toNat

/-- `NNN + V[0]`, not reduced to 12 bits (41_flow.md R124). -/
def State.offsetTarget (s : State) (nnn : BitVec 12) : Word := addr16 nnn + zext16 (s.reg 0)

/-- `I + V[X]` as a natural number (44_index_memory.md R161). -/
def State.indexSum (s : State) (x : Reg) : Nat := s.index + (s.reg x).toNat

/-- The address of a glyph, `V[X] * 5`, of all 8 bits (R162). -/
def spriteCharAddress (b : Byte) : Word := zext16 b * BitVec.ofNat 16 Config.glyphBytes

/-- Hundreds, tens and ones of a byte, one binary digit a byte (R163). -/
def bcdDigits (b : Byte) : List Byte :=
  [BitVec.ofNat 8 (b.toNat / 100), BitVec.ofNat 8 (b.toNat / 10 % 10), BitVec.ofNat 8 (b.toNat % 10)]

/-- The registers `V[0]` to `V[X]`, ascending, both ends included (R164, R165). -/
def regsUpTo (x : Reg) : List Reg := (List.finRange 16).filter fun k => decide (k ≤ x)

/-- The contents of `V[0]` to `V[X]`. -/
def State.regBytes (s : State) (x : Reg) : List Byte := (regsUpTo x).map s.reg

/-- How many registers the range `V[0]` to `V[X]` has (20_memory.md R54). -/
def rangeLength (x : Reg) : Nat := x.val + 1

end Sys2Proof.Machine
end

