-- ==== Sys2Proof/Machine/Alu.lean ====
section
/-! DEFINITION. The register and ALU instructions (43_alu.md). All arithmetic is modulo 256 (R140). -/

namespace Sys2Proof.Machine

/-- set-immediate (R142). -/
def execSetImmediate (x : Reg) (nn : Byte) (s : State) : Host.Outcome State Fault Refusal :=
  .next (s.setReg x nn).advance

/-- add-immediate (R143): no flag. -/
def execAddImmediate (x : Reg) (nn : Byte) (s : State) : Host.Outcome State Fault Refusal :=
  .next (s.setReg x (s.reg x + nn)).advance

/-- set-register (R144). -/
def execSetRegister (x y : Reg) (s : State) : Host.Outcome State Fault Refusal :=
  .next (s.setReg x (s.reg y)).advance

/-- or (R145): no flag. -/
def execOrRegisters (x y : Reg) (s : State) : Host.Outcome State Fault Refusal :=
  .next (s.setReg x (s.reg x ||| s.reg y)).advance

/-- and (R146): no flag. -/
def execAndRegisters (x y : Reg) (s : State) : Host.Outcome State Fault Refusal :=
  .next (s.setReg x (s.reg x &&& s.reg y)).advance

/-- xor (R147): no flag. -/
def execXorRegisters (x y : Reg) (s : State) : Host.Outcome State Fault Refusal :=
  .next (s.setReg x (s.reg x ^^^ s.reg y)).advance

/-- add-registers (R148). -/
def execAddRegisters (x y : Reg) (s : State) : Host.Outcome State Fault Refusal :=
  .next (s.setResultAndFlag x (s.reg x + s.reg y) (carryOut (s.reg x) (s.reg y))).advance

/-- sub-registers (R149): `V[X] - V[Y]`. -/
def execSubRegisters (x y : Reg) (s : State) : Host.Outcome State Fault Refusal :=
  .next (s.setResultAndFlag x (s.reg x - s.reg y) (noBorrow (s.reg x) (s.reg y))).advance

/-- shift-right (R150): logical, by one; `V[Y]` is not read. -/
def execShiftRight (x : Reg) (s : State) : Host.Outcome State Fault Refusal :=
  .next (s.setResultAndFlag x (s.reg x >>> 1) (shiftedOutLow (s.reg x))).advance

/-- sub-registers-reversed (R151): `V[Y] - V[X]`, into `V[X]`. -/
def execSubRegistersReversed (x y : Reg) (s : State) : Host.Outcome State Fault Refusal :=
  .next (s.setResultAndFlag x (s.reg y - s.reg x) (noBorrow (s.reg y) (s.reg x))).advance

/-- shift-left (R152): by one; `V[Y]` is not read. -/
def execShiftLeft (x : Reg) (s : State) : Host.Outcome State Fault Refusal :=
  .next (s.setResultAndFlag x (s.reg x <<< 1) (shiftedOutHigh (s.reg x))).advance

/-- random-and (R154): the byte is a free value, and one draw is used up (log 2). -/
def execRandomAnd (x : Reg) (nn : Byte) (s : State) : Host.Outcome State Fault Refusal :=
  .next { (s.setReg x (Config.randomByte s.draws &&& nn)).advance with draws := s.draws + 1 }

end Sys2Proof.Machine
end

