-- ==== Sys2Proof/Machine/Display.lean ====
section
/-! DEFINITION. The display instructions and the sprite compositor (46_display.md). -/

namespace Sys2Proof.Machine

/-- clear-screen (R180). -/
def execClearScreen (s : State) : Host.Outcome State Fault Refusal :=
  .next (State.advance { s with fb := Framebuffer.clear })

/-! ### The sprite compositor -/

/-- Where the set bits of one sprite row land: column `c` of the row is bit `7 - c` (R183). -/
def rowTargets (vx y : Nat) (row : Byte) : List (Nat × Nat) :=
  ((List.range 8).filter fun c => row.getLsbD (7 - c)).map fun c => (vx + c, y)

/-- `targets(vx, vy, N, row)`: where the set bits of the sprite land, by rising row and, within a row, rising column; the
sums are natural numbers (R183). -/
def targets (vx vy : Nat) : List Byte → List (Nat × Nat)
  | [] => []
  | row :: rows => rowTargets vx vy row ++ targets vx (vy + 1) rows

/-- The cell a target names when it is on the screen (R184). -/
def onScreen (p : Nat × Nat) : Option Pixel :=
  if h : p.1 < 64 ∧ p.2 < 32 then some (⟨p.1, h.1⟩, ⟨p.2, h.2⟩) else none

/-- A target wrapped onto the screen (R184). -/
def wrapPixel (p : Nat × Nat) : Pixel := (⟨p.1 % 64, Nat.mod_lt _ (by decide)⟩, ⟨p.2 % 32, Nat.mod_lt _ (by decide)⟩)

/-- `edge(DRAW_EDGE, T)` (R184): the cells to toggle, or none when the policy calls for the fault. -/
def edge (policy : DrawEdge) (ts : List (Nat × Nat)) : Option (List Pixel) :=
  match policy with
  | .error => if ts.all fun p => (onScreen p).isSome then some (ts.filterMap onScreen) else none
  | .clip => some (ts.filterMap onScreen)
  | .wrap => some (ts.map wrapPixel)

/-- One target: toggle its cell; a cell that was set makes the collision, which is never cleared (R185). -/
def compositeStep (acc : Framebuffer × Bool) (p : Pixel) : Framebuffer × Bool :=
  (acc.1.toggle p, acc.2 || acc.1.pixel p)

/-- All targets in turn, from no collision (R185). -/
def composite (fb : Framebuffer) (ps : List Pixel) : Framebuffer × Bool := ps.foldl compositeStep (fb, false)

/-- The sprite's `N` rows, read from `I` upward (R183). -/
def State.spriteRows (s : State) (n : Nat) : List Byte := s.mem.readBytes s.index n

/-- draw-sprite from the origin `(vx, vy)` (R181): the sprite's bytes are checked first, then the edge. -/
def State.drawAt (s : State) (vx vy : Byte) (n : Nat) : Except Cause State :=
  match rangeCause .read s.index n with
  | some c => .error c
  | none =>
    match edge s.drawEdge (targets vx.toNat vy.toNat (s.spriteRows n)) with
    | none => .error (.drawOutOfBounds vx vy)
    | some ps =>
      .ok ((State.setFlag { s with fb := (composite s.fb ps).1 } (composite s.fb ps).2).advance)

/-- draw-sprite (R181): the origin is read before `VF` is written (R182). -/
def execDrawSprite (x y : Reg) (n : Fin 16) (s : State) : Host.Outcome State Fault Refusal :=
  s.orRaise (encode (.drawSprite x y n)) (s.drawAt (s.reg x) (s.reg y) n.val)

end Sys2Proof.Machine
end

