-- ==== Sys2Proof/Machine/Flow.lean ====
section
/-! DEFINITION. Control transfer (41_flow.md): return, call-legacy, jump, call, jump-with-offset. -/

namespace Sys2Proof.Machine

/-- return (R120): pops, and continues after the call whose address was saved. -/
def execReturn (s : State) : Host.Outcome State Fault Refusal :=
  s.orRaise (encode .ret) <|
    match s.pop with
    | .ok (w, t) => .ok (t.setPc (w + 2))
    | .error c => .error c

/-- call-legacy (R121): a no-op; `NNN` is ignored. -/
def execCallLegacy (_nnn : BitVec 12) (s : State) : Host.Outcome State Fault Refusal := .next s.advance

/-- jump (R122). -/
def execJump (nnn : BitVec 12) (s : State) : Host.Outcome State Fault Refusal := .next (s.setPc (addr16 nnn))

/-- call (R123): saves the address of the call itself. -/
def execCall (nnn : BitVec 12) (s : State) : Host.Outcome State Fault Refusal :=
  s.orRaise (encode (.call nnn)) <|
    match s.push s.pc with
    | .ok t => .ok (t.setPc (addr16 nnn))
    | .error c => .error c

/-- jump-with-offset (R124). -/
def execJumpWithOffset (nnn : BitVec 12) (s : State) : Host.Outcome State Fault Refusal :=
  .next (s.setPc (s.offsetTarget nnn))

end Sys2Proof.Machine
end

