-- ==== Sys2Proof/Machine/IndexMemory.lean ====
section
/-! DEFINITION. The index register and memory instructions (44_index_memory.md). -/

namespace Sys2Proof.Machine

/-- set-index (R160). -/
def execSetIndex (nnn : BitVec 12) (s : State) : Host.Outcome State Fault Refusal :=
  .next (s.setIndex (addr16 nnn)).advance

/-- add-to-index (R161): a sum above 4095 faults, it is not masked and sets no flag. -/
def execAddToIndex (x : Reg) (s : State) : Host.Outcome State Fault Refusal :=
  s.orRaise (encode (.addToIndex x)) <|
    if Config.memSize ≤ s.indexSum x then .error (.addressOutOfRange .index (s.indexSum x))
    else .ok (s.setIndex (BitVec.ofNat 16 (s.indexSum x))).advance

/-- set-index-to-sprite-char (R162). -/
def execSetIndexToSpriteChar (x : Reg) (s : State) : Host.Outcome State Fault Refusal :=
  .next (s.setIndex (spriteCharAddress (s.reg x))).advance

/-- store-bcd (R163). -/
def execStoreBcd (x : Reg) (s : State) : Host.Outcome State Fault Refusal :=
  s.orRaise (encode (.storeBcd x)) <|
    whenInRange .write s.index 3 (s.storeBytes s.index (bcdDigits (s.reg x))).advance

/-- register-dump (R164): `I` is not changed. -/
def execRegisterDump (x : Reg) (s : State) : Host.Outcome State Fault Refusal :=
  s.orRaise (encode (.registerDump x)) <|
    whenInRange .write s.index (rangeLength x) (s.storeBytes s.index (s.regBytes x)).advance

/-- register-load (R165): `I` is not changed. -/
def execRegisterLoad (x : Reg) (s : State) : Host.Outcome State Fault Refusal :=
  s.orRaise (encode (.registerLoad x)) <|
    whenInRange .read s.index (rangeLength x) (s.loadRegs s.index (regsUpTo x)).advance

end Sys2Proof.Machine
end

