-- ==== Sys2Proof/Machine/Skips.lean ====
section
/-! DEFINITION. The six conditional skips (42_skips.md). -/

namespace Sys2Proof.Machine

/-- skip-if-equal-immediate (R130). -/
def execSkipIfEqualImmediate (x : Reg) (nn : Byte) (s : State) : Host.Outcome State Fault Refusal :=
  .next (s.skipWhen (s.reg x == nn))

/-- skip-if-not-equal-immediate (R131). -/
def execSkipIfNotEqualImmediate (x : Reg) (nn : Byte) (s : State) : Host.Outcome State Fault Refusal :=
  .next (s.skipWhen (s.reg x != nn))

/-- skip-if-registers-equal (R132). -/
def execSkipIfRegistersEqual (x y : Reg) (s : State) : Host.Outcome State Fault Refusal :=
  .next (s.skipWhen (s.reg x == s.reg y))

/-- skip-if-registers-not-equal (R133). -/
def execSkipIfRegistersNotEqual (x y : Reg) (s : State) : Host.Outcome State Fault Refusal :=
  .next (s.skipWhen (s.reg x != s.reg y))

/-- skip-if-key-pressed (R134). -/
def execSkipIfKeyPressed (x : Reg) (s : State) : Host.Outcome State Fault Refusal :=
  s.orRaise (encode (.skipIfKeyPressed x)) <|
    match s.keyAt (s.reg x) with
    | .ok pressed => .ok (s.skipWhen pressed)
    | .error c => .error c

/-- skip-if-key-not-pressed (R135). -/
def execSkipIfKeyNotPressed (x : Reg) (s : State) : Host.Outcome State Fault Refusal :=
  s.orRaise (encode (.skipIfKeyNotPressed x)) <|
    match s.keyAt (s.reg x) with
    | .ok pressed => .ok (s.skipWhen (!pressed))
    | .error c => .error c

end Sys2Proof.Machine
end

