-- ==== Sys2Proof/Machine/TimersKeys.lean ====
section
/-! DEFINITION. The timer instructions and wait-for-key (45_timers_keys.md), with the poll of a machine that awaits a key
(40_cycle.md R102). -/

namespace Sys2Proof.Machine

/-- read-delay-timer (R170). -/
def execReadDelayTimer (x : Reg) (s : State) : Host.Outcome State Fault Refusal := .next (s.setReg x s.dt).advance

/-- set-delay-timer (R171). -/
def execSetDelayTimer (x : Reg) (s : State) : Host.Outcome State Fault Refusal :=
  .next (State.advance { s with dt := s.reg x })

/-- set-sound-timer (R172). -/
def execSetSoundTimer (x : Reg) (s : State) : Host.Outcome State Fault Refusal :=
  .next (State.advance { s with st := s.reg x })

/-- The completion of a wait-for-key into `V[x]`, if some key is pressed: one of the pressed keys is drawn, its index stored,
`pc` advanced (R173). -/
def State.takeKey (s : State) (x : Reg) : Option State :=
  match s.pressedKeys with
  | [] => none
  | k :: ks => some { (s.setReg x (BitVec.ofNat 8 (drawFrom s.draws k ks).val)).advance with draws := s.draws + 1 }

/-- wait-for-key in the cycle that fetches it (R173). -/
def execWaitForKey (x : Reg) (s : State) : Host.Outcome State Fault Refusal :=
  match s.takeKey x with
  | some t => .next t
  | none => .next { s with waitX := x, run := .awaitingKey }

/-- The cycle of a machine that awaits a key (40_cycle.md R102). -/
def State.pollKey (s : State) : State :=
  match s.takeKey s.waitX with
  | some t => { t with run := .running }
  | none => s

end Sys2Proof.Machine
end

