-- ==== Sys2Proof/Machine/Dispatch.lean ====
section
/-! DEFINITION. The dispatcher: one arm per instruction (30_encoding.md R84: every case is independent). -/

namespace Sys2Proof.Machine

/-- The meaning of an instruction (40_cycle.md R103, step 5). -/
def exec (i : Instr) (s : State) : Host.Outcome State Fault Refusal :=
  match i with
  | .clearScreen => Sys2Proof.Machine.execClearScreen s
  | .ret => Sys2Proof.Machine.execReturn s
  | .callLegacy nnn => Sys2Proof.Machine.execCallLegacy nnn s
  | .jump nnn => Sys2Proof.Machine.execJump nnn s
  | .call nnn => Sys2Proof.Machine.execCall nnn s
  | .skipIfEqualImmediate x nn => Sys2Proof.Machine.execSkipIfEqualImmediate x nn s
  | .skipIfNotEqualImmediate x nn => Sys2Proof.Machine.execSkipIfNotEqualImmediate x nn s
  | .skipIfRegistersEqual x y => Sys2Proof.Machine.execSkipIfRegistersEqual x y s
  | .setImmediate x nn => Sys2Proof.Machine.execSetImmediate x nn s
  | .addImmediate x nn => Sys2Proof.Machine.execAddImmediate x nn s
  | .setRegister x y => Sys2Proof.Machine.execSetRegister x y s
  | .orRegisters x y => Sys2Proof.Machine.execOrRegisters x y s
  | .andRegisters x y => Sys2Proof.Machine.execAndRegisters x y s
  | .xorRegisters x y => Sys2Proof.Machine.execXorRegisters x y s
  | .addRegisters x y => Sys2Proof.Machine.execAddRegisters x y s
  | .subRegisters x y => Sys2Proof.Machine.execSubRegisters x y s
  | .shiftRight x => Sys2Proof.Machine.execShiftRight x s
  | .subRegistersReversed x y => Sys2Proof.Machine.execSubRegistersReversed x y s
  | .shiftLeft x => Sys2Proof.Machine.execShiftLeft x s
  | .skipIfRegistersNotEqual x y => Sys2Proof.Machine.execSkipIfRegistersNotEqual x y s
  | .setIndex nnn => Sys2Proof.Machine.execSetIndex nnn s
  | .jumpWithOffset nnn => Sys2Proof.Machine.execJumpWithOffset nnn s
  | .randomAnd x nn => Sys2Proof.Machine.execRandomAnd x nn s
  | .drawSprite x y n => Sys2Proof.Machine.execDrawSprite x y n s
  | .skipIfKeyPressed x => Sys2Proof.Machine.execSkipIfKeyPressed x s
  | .skipIfKeyNotPressed x => Sys2Proof.Machine.execSkipIfKeyNotPressed x s
  | .readDelayTimer x => Sys2Proof.Machine.execReadDelayTimer x s
  | .waitForKey x => Sys2Proof.Machine.execWaitForKey x s
  | .setDelayTimer x => Sys2Proof.Machine.execSetDelayTimer x s
  | .setSoundTimer x => Sys2Proof.Machine.execSetSoundTimer x s
  | .addToIndex x => Sys2Proof.Machine.execAddToIndex x s
  | .setIndexToSpriteChar x => Sys2Proof.Machine.execSetIndexToSpriteChar x s
  | .storeBcd x => Sys2Proof.Machine.execStoreBcd x s
  | .registerDump x => Sys2Proof.Machine.execRegisterDump x s
  | .registerLoad x => Sys2Proof.Machine.execRegisterLoad x s

end Sys2Proof.Machine
end

