-- ==== Sys2Proof/Machine/Cycle.lean ====
section
/-! DEFINITION. The cycle of the core (40_cycle.md R100 to R103) and the turn that comes next (R114). -/

namespace Sys2Proof.Machine

/-- A cycle in `Running` (R103): fetch, decode, and either the fault or the instruction's own rule. -/
def State.runCycle (s : State) : Host.Outcome State Fault Refusal :=
  match s.fetch with
  | .error c => .next (s.raise 0 c)
  | .ok w =>
    match decodeWord w with
    | .error _ => .next (s.raise w .unsupportedOpcode)
    | .ok i => exec i s

/-- One cycle of the core, by the run state at its start (R100): R101 for Stopped, R102 for AwaitingKey, R103 for Running. -/
def State.cycle (s : State) : Host.Outcome State Fault Refusal :=
  match s.run with
  | .stopped => .next s
  | .awaitingKey => .next s.pollKey
  | .running => s.runCycle

/-- The turns before the next cycle of the core once the listed ones are over, and how the schedule goes on from there. -/
def Beyond.split : Beyond → List Turn × Beyond
  | .always block => (block, .always block)
  | .free n => (Config.turnsBefore n, .free (n + 1))

/-- The next turn, and the state with that turn taken off the schedule: the first turn listed; when none is, the first of those
before the next cycle of the core, with the rest and that cycle listed after it (R114; log 4). -/
def State.nextTurn (s : State) : Turn × State :=
  match s.turns with
  | turn :: rest => (turn, { s with turns := rest })
  | [] =>
    match s.beyond.split with
    | ([], b) => (.core, { s with beyond := b })
    | (turn :: rest, b) => (turn, { s with turns := rest ++ [.core], beyond := b })

/-- The next turn, taken (R114). -/
def State.takeTurn (s : State) : Host.Outcome State Fault Refusal :=
  match s.nextTurn with
  | (.core, t) => t.cycle
  | (.tick, t) => .next t.tick
  | (.keys ks, t) => .next (t.setKeys ks)

end Sys2Proof.Machine
end

