-- ==== Sys2Proof/Machine/Step.lean ====
section
/-! DEFINITION. One step of the machine, and the state whose next step runs a given instruction word. -/

namespace Sys2Proof.Machine

/-- One step: the next turn of the core or of an agent outside it (40_cycle.md R100, R114). -/
def step (s : State) : Host.Outcome State Fault Refusal := s.takeTurn

/-- The state with an instruction, given by its bits in the opcode table's numbering, stored where the next step fetches. -/
def State.withFetchWord (s : State) (nbits w : Nat) : State := s.placeWord (BitVec.ofNat 16 (w % 2 ^ nbits))

end Sys2Proof.Machine
end

