-- ==== Sys2Proof/Safety.lean ====
section
/-! DEFINITION. The terms the claims use, each written from the spec's tables and not from the meanings: what an instruction
may write (10_state.md R22), what it may raise (60_exceptions.md R208), which cells a sprite lands on (46_display.md R183 to
R185), the invariant of the machine, and the states a session starts in. -/

namespace Sys2Proof.Machine

/-! ### Frames -/

/-- A set of places of the state, `pc` left out: where the field is false, or false of the register or address, nothing may
change. -/
structure Changes where
  /-- General registers. -/
  regs : Reg → Bool := fun _ => false
  /-- The index register. -/
  index : Bool := false
  /-- The call stack and its depth. -/
  stack : Bool := false
  /-- The delay timer. -/
  dt : Bool := false
  /-- The sound timer. -/
  st : Bool := false
  /-- The framebuffer. -/
  fb : Bool := false
  /-- Memory, by address. -/
  mem : Nat → Bool := fun _ => false
  /-- The run state. -/
  run : Bool := false
  /-- The latch `wait_x`. -/
  waitX : Bool := false
  /-- The diagnostic record. -/
  diag : Bool := false
  /-- The model's counter of draws. -/
  draws : Bool := false

/-- From `s` to `t` nothing changes but `pc` and the places in `c`. The keys, the parameter DRAW_EDGE and the schedule are in
no set: the core never writes them (10_state.md R30, R38). Memory is compared byte by byte. -/
structure Keeps (c : Changes) (s t : State) : Prop where
  regs : ∀ r, c.regs r = false → t.reg r = s.reg r
  index : c.index = false → t.i = s.i
  stack : c.stack = false → t.stack = s.stack ∧ t.sp = s.sp
  dt : c.dt = false → t.dt = s.dt
  st : c.st = false → t.st = s.st
  fb : c.fb = false → t.fb = s.fb
  mem : ∀ a, c.mem a = false → t.mem.read a = s.mem.read a
  run : c.run = false → t.run = s.run
  waitX : c.waitX = false → t.waitX = s.waitX
  diag : c.diag = false → t.diag = s.diag
  draws : c.draws = false → t.draws = s.draws
  keys : t.keys = s.keys
  drawEdge : t.drawEdge = s.drawEdge
  turns : t.turns = s.turns
  beyond : t.beyond = s.beyond

/-- Nothing but `pc`. -/
def Changes.pcOnly : Changes := {}

/-- One general register. -/
def Changes.oneReg (x : Reg) : Changes := { regs := fun r => r == x }

/-- A general register and the flag register. -/
def Changes.regAndFlag (x : Reg) : Changes := { regs := fun r => r == x || r == 15 }

/-- What taking a fault writes (60_exceptions.md R212): `diag` and `run`. -/
def Changes.fault : Changes := { run := true, diag := true }

/-- `n` bytes of memory from `a` upward. -/
def Changes.bytes (a n : Nat) : Changes := { mem := fun k => decide (a ≤ k) && decide (k < a + n) }

/-- No key is pressed (45_timers_keys.md R173: `P` is empty). -/
def State.noKey (s : State) : Prop := ∀ k : Reg, s.key k = false

end Sys2Proof.Machine

namespace Sys2Proof

open Machine

/-- What each instruction writes besides `pc` when it does not fault (10_state.md R22, R23, R26 to R30, R35; 20_memory.md R54). -/
def Instr.writes (i : Instr) (s : State) : Changes :=
  match i with
  | .clearScreen => { fb := true }
  | .ret | .call _ => { stack := true }
  | .callLegacy _ | .jump _ | .jumpWithOffset _ => Changes.pcOnly
  | .skipIfEqualImmediate _ _ | .skipIfNotEqualImmediate _ _ => Changes.pcOnly
  | .skipIfRegistersEqual _ _ | .skipIfRegistersNotEqual _ _ => Changes.pcOnly
  | .skipIfKeyPressed _ | .skipIfKeyNotPressed _ => Changes.pcOnly
  | .setImmediate x _ | .addImmediate x _ | .setRegister x _ => Changes.oneReg x
  | .orRegisters x _ | .andRegisters x _ | .xorRegisters x _ => Changes.oneReg x
  | .addRegisters x _ | .subRegisters x _ | .subRegistersReversed x _ => Changes.regAndFlag x
  | .shiftRight x | .shiftLeft x => Changes.regAndFlag x
  | .setIndex _ | .addToIndex _ | .setIndexToSpriteChar _ => { index := true }
  | .randomAnd x _ => { Changes.oneReg x with draws := true }
  | .drawSprite _ _ _ => { Changes.oneReg 15 with fb := true }
  | .readDelayTimer x => Changes.oneReg x
  | .waitForKey x =>
    if (List.finRange 16).any fun k => s.key k then { Changes.oneReg x with draws := true }
    else { run := true, waitX := true }
  | .setDelayTimer _ => { dt := true }
  | .setSoundTimer _ => { st := true }
  | .storeBcd _ => Changes.bytes s.index 3
  | .registerDump x => Changes.bytes s.index (x.val + 1)
  | .registerLoad x => { regs := fun r => decide (r ≤ x) }

end Sys2Proof

namespace Sys2Proof.Machine

/-! ### Sprites -/

/-- Bit of the sprite at row `r`, column `c`: bit `7 - c` of the byte at `I + r` (46_display.md R183). -/
def State.spriteBit (s : State) (r c : Nat) : Bool := (s.mem.read (s.index + r)).getLsbD (7 - c)

/-- Some set bit of the sprite of `n` rows at `(vx, vy)` falls off the screen (R184). -/
def State.spriteLeavesScreen (s : State) (vx vy n : Nat) : Bool :=
  (List.range n).any fun r => (List.range 8).any fun c =>
    s.spriteBit r c && (decide (63 < vx + c) || decide (31 < vy + r))

/-- Where a target lands under a policy, as a pair of numbers (R184): itself, or wrapped. -/
def landing (policy : DrawEdge) (x y : Nat) : Nat × Nat :=
  match policy with
  | .error | .clip => (x, y)
  | .wrap => (x % 64, y % 32)

/-- A set bit of the sprite of `n` rows at `(vx, vy)` lands on the cell `p` (R183, R184). -/
def State.spriteCovers (s : State) (vx vy n : Nat) (p : Pixel) : Prop :=
  ∃ r c : Nat, r < n ∧ c < 8 ∧ s.spriteBit r c = true ∧ landing s.drawEdge (vx + c) (vy + r) = (p.1.val, p.2.val)

end Sys2Proof.Machine

namespace Sys2Proof

open Machine

/-! ### What an instruction may raise (60_exceptions.md R204 to R208) -/

/-- The cause an instruction raises in a state, if any, as the tables of R204 and R208 list them. -/
def Instr.cause (i : Instr) (s : State) : Option Cause :=
  match i with
  | .ret => if s.sp.val = 0 then some .stackUnderflow else none
  | .call _ => if s.sp.val = 16 then some .stackOverflow else none
  | .skipIfKeyPressed x | .skipIfKeyNotPressed x =>
    if 15 < (s.reg x).toNat then some (.keyIndexOutOfRange (s.reg x)) else none
  | .addToIndex x =>
    if 4095 < s.index + (s.reg x).toNat then some (.addressOutOfRange .index (s.index + (s.reg x).toNat)) else none
  | .storeBcd _ => if 4095 < s.index + 2 then some (.addressOutOfRange .write (max s.index 4096)) else none
  | .registerDump x => if 4095 < s.index + x.val then some (.addressOutOfRange .write (max s.index 4096)) else none
  | .registerLoad x => if 4095 < s.index + x.val then some (.addressOutOfRange .read (max s.index 4096)) else none
  | .drawSprite x y n =>
    if 0 < n.val ∧ 4095 < s.index + n.val - 1 then some (.addressOutOfRange .read (max s.index 4096))
    else if s.drawEdge = .error ∧ s.spriteLeavesScreen (s.reg x).toNat (s.reg y).toNat n.val = true then
      some (.drawOutOfBounds (s.reg x) (s.reg y))
    else none
  | .clearScreen | .callLegacy _ | .jump _ | .jumpWithOffset _ => none
  | .skipIfEqualImmediate _ _ | .skipIfNotEqualImmediate _ _ => none
  | .skipIfRegistersEqual _ _ | .skipIfRegistersNotEqual _ _ => none
  | .setImmediate _ _ | .addImmediate _ _ | .setRegister _ _ => none
  | .orRegisters _ _ | .andRegisters _ _ | .xorRegisters _ _ => none
  | .addRegisters _ _ | .subRegisters _ _ | .shiftRight _ | .subRegistersReversed _ _ | .shiftLeft _ => none
  | .setIndex _ | .randomAnd _ _ | .readDelayTimer _ | .waitForKey _ => none
  | .setDelayTimer _ | .setSoundTimer _ | .setIndexToSpriteChar _ => none

end Sys2Proof

namespace Sys2Proof.Machine

/-- The word the next cycle fetches, if the fetch succeeds: `pc` is at most 4094 (20_memory.md R56). -/
def State.fetches (s : State) (w : Word) : Prop :=
  s.pc.toNat ≤ 4094 ∧ w = s.mem.read s.pc.toNat ++ s.mem.read (s.pc.toNat + 1)

/-- The next step is a cycle of the core that fetches and decodes the instruction `i`; `u` is the state with that turn taken off
the schedule, and otherwise the same. -/
def State.runsNext (s : State) (i : Instr) (u : State) : Prop :=
  s.run = .running ∧ s.nextTurn = (.core, u) ∧ ∃ w, s.fetches w ∧ decodeWord w = .ok i

/-! ### Schedules (40_cycle.md R114) -/

/-- No turn but the core's is scheduled, ever. -/
def State.coreAlone (s : State) : Prop := s.turns = [] ∧ s.beyond = .always []

/-- The first `n` turns of the schedule, whatever they do. -/
def State.upcoming : Nat → State → List Turn
  | 0, _ => []
  | n + 1, s => s.nextTurn.1 :: State.upcoming n s.nextTurn.2

/-! ### Invariant and launch -/

/-- What holds of every state of a session: memory in the model's own canonical list form (log 16), `I` at most 4095
(10_state.md R26), `pc` at most `10FE` (R25), every saved value an address a call was fetched from (41_flow.md R120), a waiting
machine standing at its own wait-for-key (10_state.md R32), and `diag` latched exactly while the machine is stopped
(60_exceptions.md R212, R215). -/
structure State.Inv (s : State) : Prop where
  memCanonical : s.mem.wf = true
  index : s.i.toNat ≤ 4095
  pc : s.pc.toNat ≤ 0x10FE
  saved : ∀ k : Fin 16, k.val < s.sp.val → s.stack[k.val].toNat ≤ 4094
  waiting : s.run = .awaitingKey → ∃ w, s.fetches w ∧ decodeWord w = .ok (.waitForKey s.waitX)
  stopped : s.run = .stopped → s.diag.valid = true ∧ s.diag.pc = s.pc
  notStopped : s.run ≠ .stopped → s.diag = Diag.zero

/-- A launch state (70_reset_and_hazards.md R243): reset, then the loader's move with an image of at most 3584 bytes; then the
key source may have set the keys, and any parameter and schedule may stand. -/
def State.launch (s : State) : Prop :=
  ∃ image : List Byte, image.length ≤ 3584 ∧ ∃ r, State.loadImage image State.reset = .next r ∧
    s = { r with keys := s.keys, drawEdge := s.drawEdge, draws := s.draws, turns := s.turns, beyond := s.beyond }

end Sys2Proof.Machine
end

