-- ==== Sys2Proof/Certificates/Slice0/Obligations.lean ====
section
/-! DEFINITION. The statements for the provers. Each docstring names the rules of spec/ it rests on. Frames are said with
`Keeps` and `Changes` of Safety.lean: everything outside the named set is unchanged, memory read byte by byte, `pc` apart. -/

open Sys2Proof Sys2Proof.Machine

/-! ### Encoding -/

/-- 30_encoding.md R71, R75, R77 and 20_memory.md R52: the decoder gives back every well-formed instruction from its two bytes,
and leaves the bytes after them. -/
def Obligations.DecodeOfEncodeGivesBackTheInstruction : Prop :=
  ∀ (i : Instr) (rest : List Byte), i.wellFormed = true → decode (encodeBytes i ++ rest) = .ok (i, rest)

/-- R78, R79: a word decodes to an instruction exactly when the instruction is well formed and the word agrees with its
canonical word on every bit the instruction examines. -/
def Obligations.WordDecodesExactlyToWhatItsExaminedBitsSay : Prop :=
  ∀ (w : Word) (i : Instr), decodeWord w = .ok i ↔ (i.wellFormed = true ∧ w &&& i.examined = encode i)

/-- R79: a decoded word lies in its instruction's row of the opcode table, by the row's mask and match. -/
def Obligations.DecodedWordLiesInItsOpcodeTableRow : Prop :=
  ∀ (w : Word) (i : Instr), decodeWord w = .ok i → w &&& i.tableMask = i.tableMatch

/-- R77, R81: the words that select no instruction are those of classes 8, 14 and 15 whose second field is not listed. -/
def Obligations.UnsupportedWordsAreThoseOfThreeClasses : Prop :=
  ∀ w : Word, (∀ i, decodeWord w ≠ .ok i) ↔
    ((opClass w = 8 ∧ ((8 ≤ (fieldN w).val ∧ (fieldN w).val ≤ 13) ∨ (fieldN w).val = 15)) ∨
     (opClass w = 14 ∧ fieldNN w ≠ 0x9E#8 ∧ fieldNN w ≠ 0xA1#8) ∨
     (opClass w = 15 ∧ fieldNN w ∉ [0x07#8, 0x0A#8, 0x15#8, 0x18#8, 0x1E#8, 0x29#8, 0x33#8, 0x55#8, 0x65#8]))

/-- R76 (the source's three words) and R75, R77, R78: a few words written out bit by bit decode to what the spec says. -/
def Obligations.SampleWordsDecodeAsTheSpecSays : Prop :=
  decodeWord 0b0110000000000101#16 = .ok (.setImmediate 0 5) ∧
  decodeWord 0b0110000100000011#16 = .ok (.setImmediate 1 3) ∧
  decodeWord 0b1000000000010100#16 = .ok (.addRegisters 0 1) ∧
  decodeWord 0b0000000111100000#16 = .ok (.callLegacy 0x1E0) ∧
  decodeWord 0b0000000011100000#16 = .ok .clearScreen ∧
  decodeWord 0b0101000100101111#16 = .ok (.skipIfRegistersEqual 1 2) ∧
  decodeWord 0b1000101010110110#16 = .ok (.shiftRight 10) ∧
  decodeWord 0b1101000000010101#16 = .ok (.drawSprite 0 1 5) ∧
  decodeWord 0b1110000010011110#16 = .ok (.skipIfKeyPressed 0) ∧
  decodeWord 0b1111111101100101#16 = .ok (.registerLoad 15)

/-! ### Memory -/

/-- About the model's own form of memory, not a rule of the spec: that memory is a list of the cells that are not 0, by rising
address (log 16). The form is one: two canonical memories that read alike at every address are the same list. Of the spec only
what an unlisted cell reads as is taken (10_state.md R40). -/
def Obligations.MemoriesThatReadAlikeAreEqual : Prop :=
  ∀ m m' : Memory, m.wf = true → m'.wf = true → (∀ a, m.read a = m'.read a) → m = m'

/-! ### Reset, loader, invariant -/

/-- 10_state.md R40, with R41: the state after reset with an image of `L ≤ 3584` bytes loaded, cell by cell. -/
def Obligations.LaunchStateHoldsTheResetTable : Prop :=
  ∀ image : List Byte, image.length ≤ 3584 → ∃ t, State.loadImage image State.reset = .next t ∧
    (∀ r, t.reg r = 0) ∧ t.i = 0 ∧ t.pc = 0x200 ∧ t.sp.val = 0 ∧ (∀ k : Fin 16, t.stack[k.val] = 0) ∧
    t.dt = 0 ∧ t.st = 0 ∧ (∀ k, t.key k = false) ∧ (∀ p, t.fb.pixel p = false) ∧
    (∀ a, a < 0x200 → t.mem.read a = 0) ∧
    (∀ j b, image[j]? = some b → t.mem.read (0x200 + j) = b) ∧
    (∀ a, 0x200 + image.length ≤ a → t.mem.read a = 0) ∧
    t.run = .running ∧ t.waitX = 0 ∧
    t.diag = { valid := false, cause := 0, word := 0, pc := 0, kind := 0, info := 0 }

/-- 70_reset_and_hazards.md R241, 60_exceptions.md R207: a longer image has no launch state. That the model says so by a
refusal is its choice (log 10). -/
def Obligations.OversizedImageIsRefused : Prop :=
  ∀ (image : List Byte) (s : State), 3584 < image.length → State.loadImage image s = .refused (.imageTooLong image.length)

/-- The invariant holds at reset. -/
def Obligations.ResetMeetsTheInvariant : Prop := State.reset.Inv

/-- The invariant holds in every launch state (70_reset_and_hazards.md R243). -/
def Obligations.LaunchStatesMeetTheInvariant : Prop := ∀ s : State, s.launch → s.Inv

/-- Every turn keeps the invariant: a cycle of the core in any run state, a tick, a move of the key source. Rests on
10_state.md R25, R26, R32, 41_flow.md R120 and 60_exceptions.md R212, R215; its clause on memory is about the model's own list
form (log 16). -/
def Obligations.StepKeepsTheInvariant : Prop := ∀ s t : State, s.Inv → step s = .next t → t.Inv

/-- About the model's own form of memory, not a rule of the spec: every turn keeps the canonical list form (log 16), from every
state whose memory has it, reachable or not. Of the spec only what an unlisted cell reads as is taken (10_state.md R40). -/
def Obligations.StepKeepsMemoryCanonical : Prop :=
  ∀ s t : State, s.mem.wf = true → step s = .next t → t.mem.wf = true

/-! ### The cycle -/

/-- 40_cycle.md R103: when the bytes at `pc` decode to `i`, a step of a running machine whose next turn is the core's is `exec i`
of the state, and nothing around it but that the turn is taken off the schedule, which is the model's own (log 4); with the core
alone nothing is taken off. -/
def Obligations.StepRunsTheDecodedInstruction : Prop :=
  (∀ (s u : State) (i : Instr), s.runsNext i u → step s = exec i u) ∧
  (∀ s u : State, s.nextTurn = (.core, u) → u = { s with turns := u.turns, beyond := u.beyond }) ∧
  (∀ (s : State) (i : Instr) (w : Word), s.run = .running → s.coreAlone → s.fetches w → decodeWord w = .ok i →
    step s = exec i s)

/-- 20_memory.md R56, with R212: the fetch succeeds exactly when `pc ≤ 4094`; at 4095 the cause is address 4096 and above that
`pc` itself, and the machine stops with `diag` latched, the word 0 and nothing else changed. -/
def Obligations.FetchOutOfRangeStopsTheMachine : Prop :=
  (∀ (s : State) (w : Word), s.fetch = .ok w ↔ s.fetches w) ∧
  (∀ s u : State, s.run = .running → s.nextTurn = (.core, u) → 4095 ≤ s.pc.toNat →
    ∃ t, step s = .next t ∧ t.pc = s.pc ∧ t.run = .stopped ∧
      t.diag = { valid := true, cause := 4, word := 0, pc := s.pc, kind := 0,
                 info := if s.pc.toNat = 4095 then 4096 else s.pc } ∧
      t.result = .fatal 4 0 (if s.pc.toNat = 4095 then 4096 else s.pc) ∧ Keeps Changes.fault u t)

/-- 60_exceptions.md R201: an unsupported word is reported with `pc`, nothing else changes, `pc` is not advanced, the run stops. -/
def Obligations.UnsupportedWordIsReportedAndStops : Prop :=
  ∀ (s u : State) (w : Word), s.run = .running → s.nextTurn = (.core, u) → s.fetches w → (∀ i, decodeWord w ≠ .ok i) →
    ∃ t, step s = .next t ∧ t.pc = s.pc ∧ t.run = .stopped ∧
      t.diag = { valid := true, cause := 1, word := w, pc := s.pc, kind := 0, info := 0 } ∧
      t.result = .unsupported w s.pc ∧ Keeps Changes.fault u t

/-- 40_cycle.md R101: a cycle of a stopped machine changes nothing, however many there are, and its result stays; with the
outside agents' moves mixed in it stays stopped with the same `diag`, `pc`, registers, stack, framebuffer and memory. -/
def Obligations.StoppedMachineStaysStopped : Prop :=
  ∀ (n : Nat) (s : State), s.run = .stopped →
    (s.coreAlone → Host.Core.run core n s = .next s) ∧
    ∃ t, Host.Core.run core n s = .next t ∧ t.run = .stopped ∧ t.result = s.result ∧
      t.diag = s.diag ∧ t.pc = s.pc ∧ t.v = s.v ∧ t.i = s.i ∧ t.stack = s.stack ∧ t.sp = s.sp ∧
      t.fb = s.fb ∧ t.mem = s.mem ∧ t.waitX = s.waitX

/-- 40_cycle.md R102: a cycle of a machine that awaits a key; `u` is the state with the core's turn taken off the schedule,
which is the model's own (log 4). -/
def Obligations.WaitingMachinePollsTheKeys : Prop :=
  ∀ s u : State, s.run = .awaitingKey → s.nextTurn = (.core, u) →
    (s.noKey → step s = .next u ∧ u.pc = s.pc ∧ u.result = .notYetComplete ∧
      u = { s with turns := u.turns, beyond := u.beyond }) ∧
    (¬ s.noKey → ∃ t, ∃ k : Reg, step s = .next t ∧ s.key k = true ∧ t.reg s.waitX = BitVec.ofNat 8 k.val ∧
      t.pc = s.pc + 2 ∧ t.run = .running ∧ t.result = .completed ∧
      Keeps { Changes.oneReg s.waitX with run := true, draws := true } u t)

/-- 60_exceptions.md R228: the wait ends only when a key is pressed; no tick and no other turn ends it. -/
def Obligations.OnlyAKeyEndsTheWait : Prop :=
  ∀ s t : State, s.run = .awaitingKey → step s = .next t → t.run ≠ .awaitingKey →
    t.run = .running ∧ t.pc = s.pc + 2 ∧ ∃ k : Reg, s.key k = true ∧ t.reg s.waitX = BitVec.ofNat 8 k.val

/-- 40_cycle.md R110: a tick lowers each timer that is above 0 by one, leaves one at 0 there, and changes nothing else, in any
run state; `u` is the state with the tick taken off the schedule, which is the model's own (log 4). -/
def Obligations.TickLowersBothTimers : Prop :=
  ∀ s u : State, s.nextTurn = (.tick, u) →
    ∃ t, step s = .next t ∧ t.dt.toNat = s.dt.toNat - 1 ∧ t.st.toNat = s.st.toNat - 1 ∧ t.pc = s.pc ∧
      Keeps { dt := true, st := true } u t ∧ u = { s with turns := u.turns, beyond := u.beyond }

/-- 40_cycle.md R111: the key source sets all 16 key states and nothing else; `u` is the state with its move taken off the
schedule, which is the model's own (log 4). -/
def Obligations.KeySourceSetsOnlyTheKeys : Prop :=
  ∀ (s u : State) (ks : Vector Bool 16), s.nextTurn = (.keys ks, u) →
    ∃ t, step s = .next t ∧ (∀ k : Reg, t.key k = ks[k.val]) ∧ t.pc = s.pc ∧
      Keeps {} { u with keys := ks } t ∧ u = { s with turns := u.turns, beyond := u.beyond }

/-- 40_cycle.md R100, R104: every step of every state has a next state; no state ends the model's run. -/
def Obligations.EveryStepHasANextState : Prop := ∀ s : State, ∃ t, step s = .next t

/-! ### Control transfer (41_flow.md) -/

/-- R120: return. -/
def Obligations.ReturnContinuesAfterTheSavedCall : Prop :=
  ∀ s : State,
    (∀ (k : Nat) (w : Word), s.sp.val = k + 1 → s.stack[k]? = some w →
      ∃ t, exec .ret s = .next t ∧ t.pc = w + 2 ∧ t.sp.val = k ∧ t.stack = s.stack ∧ Keeps { stack := true } s t) ∧
    (s.sp.val = 0 → ∃ t, exec .ret s = .next t ∧ t.pc = s.pc ∧ t.run = .stopped ∧
      t.diag = { valid := true, cause := 3, word := 0x00EE, pc := s.pc, kind := 0, info := 0 } ∧ Keeps Changes.fault s t)

/-- R123: call. -/
def Obligations.CallSavesItsOwnAddress : Prop :=
  ∀ (s : State) (nnn : BitVec 12),
    (s.sp.val < 16 → ∃ t, exec (.call nnn) s = .next t ∧ t.pc = nnn.zeroExtend 16 ∧ t.sp.val = s.sp.val + 1 ∧
      t.stack[s.sp.val]? = some s.pc ∧ (∀ k, k ≠ s.sp.val → t.stack[k]? = s.stack[k]?) ∧ Keeps { stack := true } s t) ∧
    (s.sp.val = 16 → ∃ t, exec (.call nnn) s = .next t ∧ t.pc = s.pc ∧ t.run = .stopped ∧
      t.diag = { valid := true, cause := 2, word := encode (.call nnn), pc := s.pc, kind := 0, info := 0 } ∧
      Keeps Changes.fault s t)

/-- 41_flow.md R123 (the source's round-trip property): a call and then a return resume after the call, with the depth as
before. -/
def Obligations.ReturnAfterCallResumesAfterTheCall : Prop :=
  ∀ (s : State) (nnn : BitVec 12), s.sp.val < 16 →
    ∃ t u, exec (.call nnn) s = .next t ∧ exec .ret t = .next u ∧ u.pc = s.pc + 2 ∧ u.sp = s.sp ∧
      (∀ k, k < s.sp.val → u.stack[k]? = s.stack[k]?) ∧ Keeps { stack := true } s u

/-- R121, R122, R124: call-legacy, jump and jump-with-offset write `pc` and nothing else; a jump to its own address leaves the
whole state as it is. -/
def Obligations.JumpsWriteOnlyThePc : Prop :=
  ∀ (s : State) (nnn : BitVec 12),
    (∃ t, exec (.callLegacy nnn) s = .next t ∧ t.pc = s.pc + 2 ∧ Keeps Changes.pcOnly s t) ∧
    (∃ t, exec (.jump nnn) s = .next t ∧ t.pc = nnn.zeroExtend 16 ∧ Keeps Changes.pcOnly s t) ∧
    (∃ t, exec (.jumpWithOffset nnn) s = .next t ∧ t.pc.toNat = nnn.toNat + (s.reg 0).toNat ∧ Keeps Changes.pcOnly s t) ∧
    (s.pc = nnn.zeroExtend 16 → exec (.jump nnn) s = .next s)

/-! ### Skips (42_skips.md) -/

/-- R129 to R133: the four skips on registers move `pc` by 4 when their condition holds and by 2 when it does not, and change
nothing else. -/
def Obligations.RegisterSkipsMoveOnlyThePc : Prop :=
  ∀ (s : State) (x y : Reg) (nn : Byte),
    (∃ t, exec (.skipIfEqualImmediate x nn) s = .next t ∧ t.pc = (if s.reg x = nn then s.pc + 4 else s.pc + 2) ∧
      Keeps Changes.pcOnly s t) ∧
    (∃ t, exec (.skipIfNotEqualImmediate x nn) s = .next t ∧ t.pc = (if s.reg x ≠ nn then s.pc + 4 else s.pc + 2) ∧
      Keeps Changes.pcOnly s t) ∧
    (∃ t, exec (.skipIfRegistersEqual x y) s = .next t ∧ t.pc = (if s.reg x = s.reg y then s.pc + 4 else s.pc + 2) ∧
      Keeps Changes.pcOnly s t) ∧
    (∃ t, exec (.skipIfRegistersNotEqual x y) s = .next t ∧
      t.pc = (if s.reg x ≠ s.reg y then s.pc + 4 else s.pc + 2) ∧ Keeps Changes.pcOnly s t)

/-- R134, R135: the key skips, for a register value that names a key; and the fault for one that does not. -/
def Obligations.KeySkipsTestTheNamedKey : Prop :=
  ∀ (s : State) (x : Reg),
    (∀ k : Reg, (s.reg x).toNat = k.val →
      (∃ t, exec (.skipIfKeyPressed x) s = .next t ∧ t.pc = (if s.key k = true then s.pc + 4 else s.pc + 2) ∧
        Keeps Changes.pcOnly s t) ∧
      (∃ t, exec (.skipIfKeyNotPressed x) s = .next t ∧ t.pc = (if s.key k = false then s.pc + 4 else s.pc + 2) ∧
        Keeps Changes.pcOnly s t)) ∧
    (15 < (s.reg x).toNat → ∀ i ∈ [Instr.skipIfKeyPressed x, Instr.skipIfKeyNotPressed x],
      ∃ t, exec i s = .next t ∧ t.pc = s.pc ∧ t.run = .stopped ∧
        t.diag = { valid := true, cause := 5, word := encode i, pc := s.pc, kind := 0, info := (s.reg x).zeroExtend 16 } ∧
        Keeps Changes.fault s t)

/-! ### Registers and arithmetic (43_alu.md) -/

/-- R142, R143: set-immediate and add-immediate; no flag. -/
def Obligations.ImmediateFormsWriteOneRegister : Prop :=
  ∀ (s : State) (x : Reg) (nn : Byte),
    (∃ t, exec (.setImmediate x nn) s = .next t ∧ t.reg x = nn ∧ t.pc = s.pc + 2 ∧ Keeps (Changes.oneReg x) s t) ∧
    (∃ t, exec (.addImmediate x nn) s = .next t ∧ (t.reg x).toNat = ((s.reg x).toNat + nn.toNat) % 256 ∧
      t.pc = s.pc + 2 ∧ Keeps (Changes.oneReg x) s t)

/-- R144 to R147: set-register, or, and, xor, bit by bit; no flag. -/
def Obligations.CopyAndLogicWriteOneRegister : Prop :=
  ∀ (s : State) (x y : Reg),
    (∃ t, exec (.setRegister x y) s = .next t ∧ t.reg x = s.reg y ∧ t.pc = s.pc + 2 ∧ Keeps (Changes.oneReg x) s t) ∧
    (∃ t, exec (.orRegisters x y) s = .next t ∧
      (∀ k, (t.reg x).getLsbD k = ((s.reg x).getLsbD k || (s.reg y).getLsbD k)) ∧ t.pc = s.pc + 2 ∧
      Keeps (Changes.oneReg x) s t) ∧
    (∃ t, exec (.andRegisters x y) s = .next t ∧
      (∀ k, (t.reg x).getLsbD k = ((s.reg x).getLsbD k && (s.reg y).getLsbD k)) ∧ t.pc = s.pc + 2 ∧
      Keeps (Changes.oneReg x) s t) ∧
    (∃ t, exec (.xorRegisters x y) s = .next t ∧
      (∀ k, (t.reg x).getLsbD k = ((s.reg x).getLsbD k ^^ (s.reg y).getLsbD k)) ∧ t.pc = s.pc + 2 ∧
      Keeps (Changes.oneReg x) s t)

/-- R141, R148: add-registers. The flag is written last, so it is what `V[15]` holds, also with `X = 15`. -/
def Obligations.AddRegistersSetsSumAndCarry : Prop :=
  ∀ (s : State) (x y : Reg), ∃ t, exec (.addRegisters x y) s = .next t ∧
    t.reg 15 = (if 255 < (s.reg x).toNat + (s.reg y).toNat then 1 else 0) ∧
    (x ≠ 15 → (t.reg x).toNat = ((s.reg x).toNat + (s.reg y).toNat) % 256) ∧
    t.pc = s.pc + 2 ∧ Keeps (Changes.regAndFlag x) s t

/-- R141, R149, R151: the two subtractions, of `V[Y]` from `V[X]` and the reverse, both into `V[X]`. -/
def Obligations.SubtractionsSetDifferenceAndNoBorrow : Prop :=
  ∀ (s : State) (x y : Reg),
    (∃ t, exec (.subRegisters x y) s = .next t ∧
      t.reg 15 = (if (s.reg y).toNat ≤ (s.reg x).toNat then 1 else 0) ∧
      (x ≠ 15 → ((t.reg x).toNat : Int) = ((s.reg x).toNat - (s.reg y).toNat : Int) % 256) ∧
      t.pc = s.pc + 2 ∧ Keeps (Changes.regAndFlag x) s t) ∧
    (∃ t, exec (.subRegistersReversed x y) s = .next t ∧
      t.reg 15 = (if (s.reg x).toNat ≤ (s.reg y).toNat then 1 else 0) ∧
      (x ≠ 15 → ((t.reg x).toNat : Int) = ((s.reg y).toNat - (s.reg x).toNat : Int) % 256) ∧
      t.pc = s.pc + 2 ∧ Keeps (Changes.regAndFlag x) s t)

/-- R141, R150, R152: the two shifts by one; the bit moved out goes to `VF`. -/
def Obligations.ShiftsMoveOneBitIntoTheFlag : Prop :=
  ∀ (s : State) (x : Reg),
    (∃ t, exec (.shiftRight x) s = .next t ∧ (t.reg 15).toNat = (s.reg x).toNat % 2 ∧
      (x ≠ 15 → (t.reg x).toNat = (s.reg x).toNat / 2) ∧ t.pc = s.pc + 2 ∧ Keeps (Changes.regAndFlag x) s t) ∧
    (∃ t, exec (.shiftLeft x) s = .next t ∧ (t.reg 15).toNat = (s.reg x).toNat / 128 ∧
      (x ≠ 15 → (t.reg x).toNat = 2 * (s.reg x).toNat % 256) ∧ t.pc = s.pc + 2 ∧ Keeps (Changes.regAndFlag x) s t)

/-- R154: random-and stores the drawn byte masked by `NN`, whichever byte the draw gives (log 2): every set bit of the result is
one of `NN`. One draw is used up. -/
def Obligations.RandomAndMasksAFreeByte : Prop :=
  ∀ (s : State) (x : Reg) (nn : Byte), ∃ t, exec (.randomAnd x nn) s = .next t ∧
    t.reg x = Config.randomByte s.draws &&& nn ∧ t.reg x &&& nn = t.reg x ∧ t.draws = s.draws + 1 ∧ t.pc = s.pc + 2 ∧
    Keeps { Changes.oneReg x with draws := true } s t

/-- 10_state.md R23: the six flag-writing instructions leave 0 or 1 in `V[15]`; draw-sprite when it raises nothing. Of the other
instructions it says nothing: those that name `V[15]` as a destination may put any byte there. -/
def Obligations.SixFlagWritersLeaveZeroOrOneInTheFlag : Prop :=
  ∀ (s t : State) (x y : Reg) (n : Fin 16),
    (∀ i ∈ [Instr.addRegisters x y, Instr.subRegisters x y, Instr.subRegistersReversed x y, Instr.shiftRight x,
      Instr.shiftLeft x], exec i s = .next t → t.reg 15 = 0 ∨ t.reg 15 = 1) ∧
    ((Instr.drawSprite x y n).cause s = none → exec (.drawSprite x y n) s = .next t → t.reg 15 = 0 ∨ t.reg 15 = 1)

/-! ### Index and memory (44_index_memory.md) -/

/-- R160, R162: set-index and set-index-to-sprite-char. -/
def Obligations.IndexIsSetToAddressOrGlyph : Prop :=
  ∀ (s : State) (x : Reg) (nnn : BitVec 12),
    (∃ t, exec (.setIndex nnn) s = .next t ∧ t.i.toNat = nnn.toNat ∧ t.pc = s.pc + 2 ∧ Keeps { index := true } s t) ∧
    (∃ t, exec (.setIndexToSpriteChar x) s = .next t ∧ t.i.toNat = (s.reg x).toNat * 5 ∧ t.pc = s.pc + 2 ∧
      Keeps { index := true } s t)

/-- R161: add-to-index, and its fault when the sum exceeds 4095. -/
def Obligations.AddToIndexAddsOrFaults : Prop :=
  ∀ (s : State) (x : Reg),
    (s.i.toNat + (s.reg x).toNat ≤ 4095 → ∃ t, exec (.addToIndex x) s = .next t ∧
      t.i.toNat = s.i.toNat + (s.reg x).toNat ∧ t.pc = s.pc + 2 ∧ Keeps { index := true } s t) ∧
    (4095 < s.i.toNat + (s.reg x).toNat → ∃ t, exec (.addToIndex x) s = .next t ∧ t.pc = s.pc ∧ t.run = .stopped ∧
      t.diag = { valid := true, cause := 4, word := encode (.addToIndex x), pc := s.pc, kind := 3,
                 info := BitVec.ofNat 16 (s.i.toNat + (s.reg x).toNat) } ∧ Keeps Changes.fault s t)

/-- R163: store-bcd. Every byte outside the three at `I` reads as before. That memory has the list form before and after is the
model's clause (log 16). -/
def Obligations.StoreBcdStoresThreeDigits : Prop :=
  ∀ (s : State) (x : Reg), s.mem.wf = true →
    (s.index + 2 ≤ 4095 → ∃ t, exec (.storeBcd x) s = .next t ∧
      (t.mem.read s.index).toNat = (s.reg x).toNat / 100 ∧
      (t.mem.read (s.index + 1)).toNat = (s.reg x).toNat / 10 % 10 ∧
      (t.mem.read (s.index + 2)).toNat = (s.reg x).toNat % 10 ∧
      t.pc = s.pc + 2 ∧ t.mem.wf = true ∧ Keeps (Changes.bytes s.index 3) s t) ∧
    (s.index ≤ 4095 → 4095 < s.index + 2 → ∃ t, exec (.storeBcd x) s = .next t ∧ t.pc = s.pc ∧ t.run = .stopped ∧
      t.diag = { valid := true, cause := 4, word := encode (.storeBcd x), pc := s.pc, kind := 2, info := 4096 } ∧
      Keeps Changes.fault s t)

/-- R164: register-dump. `I` is unchanged, and every byte outside `I` to `I + X` reads as before. That memory has the list form
before and after is the model's clause (log 16). -/
def Obligations.RegisterDumpStoresTheRange : Prop :=
  ∀ (s : State) (x : Reg), s.mem.wf = true →
    (s.index + x.val ≤ 4095 → ∃ t, exec (.registerDump x) s = .next t ∧
      (∀ k : Reg, k ≤ x → t.mem.read (s.index + k.val) = s.reg k) ∧
      t.pc = s.pc + 2 ∧ t.mem.wf = true ∧ Keeps (Changes.bytes s.index (x.val + 1)) s t) ∧
    (s.index ≤ 4095 → 4095 < s.index + x.val → ∃ t, exec (.registerDump x) s = .next t ∧ t.pc = s.pc ∧ t.run = .stopped ∧
      t.diag = { valid := true, cause := 4, word := encode (.registerDump x), pc := s.pc, kind := 2, info := 4096 } ∧
      Keeps Changes.fault s t)

/-- R165: register-load. Registers above `X`, `I` and memory are unchanged. -/
def Obligations.RegisterLoadFillsTheRange : Prop :=
  ∀ (s : State) (x : Reg),
    (s.index + x.val ≤ 4095 → ∃ t, exec (.registerLoad x) s = .next t ∧
      (∀ k : Reg, k ≤ x → t.reg k = s.mem.read (s.index + k.val)) ∧
      t.pc = s.pc + 2 ∧ Keeps { regs := fun r => decide (r ≤ x) } s t) ∧
    (s.index ≤ 4095 → 4095 < s.index + x.val → ∃ t, exec (.registerLoad x) s = .next t ∧ t.pc = s.pc ∧ t.run = .stopped ∧
      t.diag = { valid := true, cause := 4, word := encode (.registerLoad x), pc := s.pc, kind := 1, info := 4096 } ∧
      Keeps Changes.fault s t)

/-- 20_memory.md R52, R60: the first two bytes of a register-dump into the place of the next instruction are the word the next
cycle fetches, the lower-numbered register in the high half. -/
def Obligations.DumpedBytesAreTheNextWordFetched : Prop :=
  ∀ (s : State) (x : Reg), s.mem.wf = true → 1 ≤ x.val → s.index = s.pc.toNat + 2 → s.index + x.val ≤ 4095 →
    ∃ t, exec (.registerDump x) s = .next t ∧ t.fetches (s.reg 0 ++ s.reg 1)

/-! ### Timers and keys (45_timers_keys.md) -/

/-- R170, R171, R172: the three timer instructions. -/
def Obligations.TimerInstructionsCopyOneByte : Prop :=
  ∀ (s : State) (x : Reg),
    (∃ t, exec (.readDelayTimer x) s = .next t ∧ t.reg x = s.dt ∧ t.pc = s.pc + 2 ∧ Keeps (Changes.oneReg x) s t) ∧
    (∃ t, exec (.setDelayTimer x) s = .next t ∧ t.dt = s.reg x ∧ t.pc = s.pc + 2 ∧ Keeps { dt := true } s t) ∧
    (∃ t, exec (.setSoundTimer x) s = .next t ∧ t.st = s.reg x ∧ t.pc = s.pc + 2 ∧ Keeps { st := true } s t)

/-- R173: wait-for-key. In the cycle that fetches it: with a key pressed it completes, storing the index of a pressed key,
whichever the draw takes (log 3); with none it leaves `pc` and every register and enters `AwaitingKey`. In a later cycle, with
the keys as the source has set them by then: with none pressed nothing changes, with one pressed its index goes to `V[X]` and
`pc` advances. -/
def Obligations.WaitForKeyCompletesOrSuspends : Prop :=
  ∀ (s : State) (x : Reg),
    (¬ s.noKey → ∃ t, ∃ k : Reg, exec (.waitForKey x) s = .next t ∧ s.key k = true ∧ t.reg x = BitVec.ofNat 8 k.val ∧
      t.pc = s.pc + 2 ∧ Keeps { Changes.oneReg x with draws := true } s t) ∧
    (s.noKey → ∃ t, exec (.waitForKey x) s = .next t ∧ t.pc = s.pc ∧ t.run = .awaitingKey ∧ t.waitX = x ∧
      t.result = .notYetComplete ∧ Keeps { run := true, waitX := true } s t ∧
      ∀ (ks : Vector Bool 16) (later : State), later = { t with keys := ks, turns := [], beyond := .always [] } →
        (later.noKey → step later = .next later) ∧
        (¬ later.noKey → ∃ u, ∃ k : Reg, step later = .next u ∧ later.key k = true ∧ u.reg x = BitVec.ofNat 8 k.val ∧
          u.pc = s.pc + 2 ∧ u.run = .running ∧
          Keeps { Changes.oneReg x with run := true, draws := true } later u))

/-! ### Display (46_display.md) -/

/-- R180: clear-screen. -/
def Obligations.ClearScreenClearsEveryCell : Prop :=
  ∀ s : State, ∃ t, exec .clearScreen s = .next t ∧ (∀ p, t.fb.pixel p = false) ∧ t.pc = s.pc + 2 ∧
    Keeps { fb := true } s t

/-- R181 to R185: a draw-sprite that raises nothing. A cell is toggled exactly when a set bit of the sprite lands on it, `VF` is 1
exactly when a set cell was toggled, and nothing else but `pc` changes. -/
def Obligations.DrawSpriteTogglesTheCoveredCells : Prop :=
  ∀ (s : State) (x y : Reg) (n : Fin 16), (Instr.drawSprite x y n).cause s = none →
    ∃ t, exec (.drawSprite x y n) s = .next t ∧
      (∀ p, s.spriteCovers (s.reg x).toNat (s.reg y).toNat n.val p → t.fb.pixel p = !s.fb.pixel p) ∧
      (∀ p, ¬ s.spriteCovers (s.reg x).toNat (s.reg y).toNat n.val p → t.fb.pixel p = s.fb.pixel p) ∧
      ((∃ p, s.spriteCovers (s.reg x).toNat (s.reg y).toNat n.val p ∧ s.fb.pixel p = true) → t.reg 15 = 1) ∧
      ((∀ p, s.spriteCovers (s.reg x).toNat (s.reg y).toNat n.val p → s.fb.pixel p = false) → t.reg 15 = 0) ∧
      t.pc = s.pc + 2 ∧ Keeps { Changes.oneReg 15 with fb := true } s t

/-- R181, R184, R206: the two faults of draw-sprite, the range of the sprite's bytes tested first; neither draws anything, and
under clip and wrap a sprite whose bytes are in range never faults. -/
def Obligations.DrawSpriteFaultsDrawNothing : Prop :=
  ∀ (s : State) (x y : Reg) (n : Fin 16), s.index ≤ 4095 →
    (0 < n.val → 4095 < s.index + n.val - 1 → ∃ t, exec (.drawSprite x y n) s = .next t ∧ t.pc = s.pc ∧ t.run = .stopped ∧
      t.diag = { valid := true, cause := 4, word := encode (.drawSprite x y n), pc := s.pc, kind := 1, info := 4096 } ∧
      Keeps Changes.fault s t) ∧
    (s.index + n.val ≤ 4096 → s.drawEdge = .error →
      s.spriteLeavesScreen (s.reg x).toNat (s.reg y).toNat n.val = true →
      ∃ t, exec (.drawSprite x y n) s = .next t ∧ t.pc = s.pc ∧ t.run = .stopped ∧
      t.diag = { valid := true, cause := 6, word := encode (.drawSprite x y n), pc := s.pc, kind := 0,
                 info := s.reg x ++ s.reg y } ∧ Keeps Changes.fault s t) ∧
    (s.index + n.val ≤ 4096 → s.drawEdge ≠ .error → ∃ t, exec (.drawSprite x y n) s = .next t ∧ t.pc = s.pc + 2 ∧
      t.run = s.run ∧ t.diag = s.diag)

/-- R183: a sprite of no rows reads nothing and draws nothing, wherever `I` stands; `VF` becomes 0. -/
def Obligations.SpriteOfNoRowsOnlyClearsTheFlag : Prop :=
  ∀ (s : State) (x y : Reg), ∃ t, exec (.drawSprite x y 0) s = .next t ∧ t.reg 15 = 0 ∧ t.fb = s.fb ∧ t.pc = s.pc + 2 ∧
    Keeps (Changes.oneReg 15) s t

/-- R186: the same sprite drawn twice at the same place restores the framebuffer. The second `VF` is 1 exactly when the first
draw set a pixel. `V[15]` as a coordinate is shut out by the rule's own condition "same `vx` and `vy`", which it may break. -/
def Obligations.DrawingTwiceRestoresTheScreen : Prop :=
  ∀ (s : State) (x y : Reg) (n : Fin 16), (Instr.drawSprite x y n).cause s = none →
    ∃ t, exec (.drawSprite x y n) s = .next t ∧
      (t.reg x = s.reg x → t.reg y = s.reg y → ∃ u, exec (.drawSprite x y n) t = .next u ∧ u.fb = s.fb ∧
        (u.reg 15 = 1 ↔ ∃ p, s.fb.pixel p = false ∧ t.fb.pixel p = true) ∧ (u.reg 15 = 0 ∨ u.reg 15 = 1))

/-- R184: a sprite all of whose set bits are on the screen is drawn identically under the three policies. -/
def Obligations.PoliciesAgreeOnTheScreen : Prop :=
  ∀ (s : State) (x y : Reg) (n : Fin 16) (policy : DrawEdge),
    s.spriteLeavesScreen (s.reg x).toNat (s.reg y).toNat n.val = false →
    ∃ t, exec (.drawSprite x y n) s = .next t ∧
      exec (.drawSprite x y n) { s with drawEdge := policy } = .next { t with drawEdge := policy }

/-! ### Whole-machine rules -/

/-- 60_exceptions.md R204 to R208, R212: an instruction raises exactly what the tables say. With a cause the state after is the
state before with `diag` latched and `run` stopped, and nothing else changed. Without one it does not stop and latches
nothing. -/
def Obligations.InstructionsRaiseExactlyTheTabledCauses : Prop :=
  ∀ (i : Instr) (s : State),
    (∀ c, i.cause s = some c →
      exec i s = .next { s with run := .stopped,
                                diag := { valid := true, cause := c.code, word := encode i, pc := s.pc,
                                          kind := c.kindCode, info := c.info } }) ∧
    (i.cause s = none → ∃ t, exec i s = .next t ∧ t.diag = s.diag ∧ (t.run = s.run ∨ t.run = .awaitingKey))

/-- 10_state.md R22, R23, R26 to R30, R35, 20_memory.md R54: what each of the 35 instructions leaves unchanged. -/
def Obligations.InstructionsWriteOnlyWhatTheTablesName : Prop :=
  ∀ (i : Instr) (s t : State), exec i s = .next t → i.cause s = none → Keeps (i.writes s) s t

/-- 40_cycle.md R103: an instruction of a running machine that raises nothing and does not suspend moves `pc` by 2 or by 4, or is
one of the four transfers; only a skip moves it by 4. -/
def Obligations.PcMovesByTwoFourOrATransfer : Prop :=
  ∀ (i : Instr) (s t : State), s.run = .running → exec i s = .next t → i.cause s = none → t.run = .running →
    t.pc = s.pc + 2 ∨
    (t.pc = s.pc + 4 ∧ ((∃ x nn, i = .skipIfEqualImmediate x nn ∨ i = .skipIfNotEqualImmediate x nn) ∨
      (∃ x y, i = .skipIfRegistersEqual x y ∨ i = .skipIfRegistersNotEqual x y) ∨
      (∃ x, i = .skipIfKeyPressed x ∨ i = .skipIfKeyNotPressed x))) ∨
    (i = .ret ∨ ∃ nnn, i = .jump nnn ∨ i = .call nnn ∨ i = .jumpWithOffset nnn)

/-- 10_state.md R33, 60_exceptions.md R200: the word a fault of an instruction latches is the word that was fetched, with `pc0`
beside it, and the cycle's result is the fatal one. -/
def Obligations.FaultLatchesTheFetchedWord : Prop :=
  ∀ (s u : State) (w : Word) (i : Instr) (c : Cause), s.run = .running → s.nextTurn = (.core, u) → s.fetches w →
    decodeWord w = .ok i → i.cause s = some c →
    ∃ t, step s = .next t ∧
      t.diag = { valid := true, cause := c.code, word := w, pc := s.pc, kind := c.kindCode, info := c.info } ∧
      t.result = .fatal c.code c.kindCode c.info ∧ t.run = .stopped ∧ t.pc = s.pc ∧ Keeps Changes.fault u t

/-- 40_cycle.md R104: the result of a cycle in which the instruction raises nothing. -/
def Obligations.CycleWithoutFaultCompletesOrWaits : Prop :=
  ∀ (s u : State) (i : Instr), s.runsNext i u → i.cause s = none →
    ∃ t, step s = .next t ∧
      (t.result = .completed ∨ (t.result = .notYetComplete ∧ t.pc = s.pc ∧ ∃ x, i = .waitForKey x ∧ s.noKey))

/-- 10_state.md R29, R33: no instruction reads the sound timer or the diagnostic record. Two states that differ in them only go
to states that differ in them only. -/
def Obligations.NoInstructionReadsSoundTimerOrDiag : Prop :=
  ∀ (i : Instr) (s t : State) (b : Byte) (d : Diag), exec i s = .next t →
    ∃ b' d', exec i { s with st := b, diag := d } = .next { t with st := b', diag := d' }

/-- 10_state.md R27: entries of the call stack above the depth are read by no rule. -/
def Obligations.StaleStackEntriesAreNeverRead : Prop :=
  ∀ (i : Instr) (s t : State) (k : Fin 16) (w : Word), s.sp.val ≤ k.val → exec i s = .next t →
    ∃ stack', exec i { s with stack := s.stack.set k.val w } = .next { t with stack := stack' } ∧
      ∀ j, j < t.sp.val → stack'[j]? = t.stack[j]?

/-! ### Schedules -/

/-- 40_cycle.md R114: cycles alternate with any number of turns of the outside agents, without end. The form of the schedule is
the model's own (log 4). A block of turns that comes before every cycle comes so for ever; in every schedule, the free ones
included, the core has another cycle after finitely many turns; and taking a turn off changes the schedule alone. -/
def Obligations.CyclesAlternateWithTurnsWithoutEnd : Prop :=
  (∀ (s : State) (block : List Turn) (m : Nat), s.turns = [] → s.beyond = .always block →
    s.upcoming (m * (block.length + 1)) = (List.replicate m (block ++ [Turn.core])).flatten) ∧
  (∀ (s : State) (k : Nat), ∃ n, k ≤ n ∧ (s.upcoming (n + 1))[n]? = some .core) ∧
  (∀ s : State, s.nextTurn.2 = { s with turns := s.nextTurn.2.turns, beyond := s.nextTurn.2.beyond })

/-- 40_cycle.md R114: any finite list of turns may come next, whatever comes after it, and the machine may go on with free turns
(log 4). -/
def Obligations.AnyTurnsMayComeNext : Prop :=
  ∀ (s : State) (ts : List Turn) (b : Beyond), State.upcoming ts.length { s with turns := ts, beyond := b } = ts
end

