-- ==== Sys2Proof/Laws/Decode.lean ====
section
/-! SUPPORT. The fields of a word as numbers, the packed words as numbers, and from both the fields of every packed word. -/

namespace Sys2Proof

/-! ### Fields as numbers -/

theorem opClass_eq (w : Word) : opClass w = w.toNat / 4096 := by
  have := w.isLt
  simp only [opClass, BitVec.extractLsb'_toNat, Nat.shiftRight_eq_div_pow]
  omega

theorem fieldX_val (w : Word) : (fieldX w).val = w.toNat / 256 % 16 := by
  change (w.extractLsb' 8 4).toNat = _
  simp [BitVec.extractLsb'_toNat, Nat.shiftRight_eq_div_pow]

theorem fieldY_val (w : Word) : (fieldY w).val = w.toNat / 16 % 16 := by
  change (w.extractLsb' 4 4).toNat = _
  simp [BitVec.extractLsb'_toNat, Nat.shiftRight_eq_div_pow]

theorem fieldN_val (w : Word) : (fieldN w).val = w.toNat % 16 := by
  change (w.extractLsb' 0 4).toNat = _
  simp [BitVec.extractLsb'_toNat]

theorem fieldNN_toNat (w : Word) : (fieldNN w).toNat = w.toNat % 256 := by
  simp [fieldNN, BitVec.extractLsb'_toNat]

theorem fieldNNN_toNat (w : Word) : (fieldNNN w).toNat = w.toNat % 4096 := by
  simp [fieldNNN, BitVec.extractLsb'_toNat]

/-! ### Packed words as numbers -/

theorem packNNN_toNat {c : Nat} (hc : c < 16) (nnn : BitVec 12) : (packNNN c nnn).toNat = c * 4096 + nnn.toNat := by
  have := nnn.isLt
  simp only [packNNN, BitVec.toNat_ofNat]
  omega

theorem packXNN_toNat {c : Nat} (hc : c < 16) (x : Reg) (nn : Byte) :
    (packXNN c x nn).toNat = c * 4096 + x.val * 256 + nn.toNat := by
  have := nn.isLt
  have := x.isLt
  simp only [packXNN, BitVec.toNat_ofNat]
  omega

theorem packXYN_toNat {c n : Nat} (hc : c < 16) (hn : n < 16) (x y : Reg) :
    (packXYN c x y n).toNat = c * 4096 + x.val * 256 + y.val * 16 + n := by
  have := x.isLt
  have := y.isLt
  simp only [packXYN, ofNibbles, BitVec.toNat_ofNat]
  omega

/-! ### The fields of packed words -/

theorem opClass_packNNN {c : Nat} (hc : c < 16) (nnn : BitVec 12) : opClass (packNNN c nnn) = c := by
  have := nnn.isLt
  rw [opClass_eq, packNNN_toNat hc]; omega

theorem fieldNNN_packNNN {c : Nat} (hc : c < 16) (nnn : BitVec 12) : fieldNNN (packNNN c nnn) = nnn := by
  have := nnn.isLt
  apply BitVec.eq_of_toNat_eq
  rw [fieldNNN_toNat, packNNN_toNat hc]; omega

theorem opClass_packXNN {c : Nat} (hc : c < 16) (x : Reg) (nn : Byte) : opClass (packXNN c x nn) = c := by
  have := nn.isLt
  have := x.isLt
  rw [opClass_eq, packXNN_toNat hc]; omega

theorem fieldX_packXNN {c : Nat} (hc : c < 16) (x : Reg) (nn : Byte) : fieldX (packXNN c x nn) = x := by
  have := nn.isLt
  have := x.isLt
  apply Fin.ext
  rw [fieldX_val, packXNN_toNat hc]; omega

theorem fieldNN_packXNN {c : Nat} (hc : c < 16) (x : Reg) (nn : Byte) : fieldNN (packXNN c x nn) = nn := by
  have := nn.isLt
  have := x.isLt
  apply BitVec.eq_of_toNat_eq
  rw [fieldNN_toNat, packXNN_toNat hc]; omega

theorem opClass_packXYN {c n : Nat} (hc : c < 16) (hn : n < 16) (x y : Reg) : opClass (packXYN c x y n) = c := by
  have := x.isLt
  have := y.isLt
  rw [opClass_eq, packXYN_toNat hc hn]; omega

theorem fieldX_packXYN {c n : Nat} (hc : c < 16) (hn : n < 16) (x y : Reg) : fieldX (packXYN c x y n) = x := by
  have := x.isLt
  have := y.isLt
  apply Fin.ext
  rw [fieldX_val, packXYN_toNat hc hn]; omega

theorem fieldY_packXYN {c n : Nat} (hc : c < 16) (hn : n < 16) (x y : Reg) : fieldY (packXYN c x y n) = y := by
  have := x.isLt
  have := y.isLt
  apply Fin.ext
  rw [fieldY_val, packXYN_toNat hc hn]; omega

theorem fieldN_packXYN {c n : Nat} (hc : c < 16) (hn : n < 16) (x y : Reg) : (fieldN (packXYN c x y n)).val = n := by
  have := x.isLt
  have := y.isLt
  rw [fieldN_val, packXYN_toNat hc hn]; omega

/-! ### Words and bytes -/

theorem wordOfBytes_high_low (w : Word) : wordOfBytes (highByte w) (lowByte w) = w := by
  apply BitVec.eq_of_toNat_eq
  have := w.isLt
  simp only [wordOfBytes, highByte, lowByte, BitVec.toNat_append, BitVec.extractLsb'_toNat, Nat.shiftRight_zero]
  rw [← Nat.shiftLeft_add_eq_or_of_lt (by omega), Nat.shiftLeft_eq, Nat.shiftRight_eq_div_pow]
  omega

end Sys2Proof
end

