-- ==== Sys2Proof/Laws/Memory.lean ====
section
/-! SUPPORT. The laws of memory: a read after a write, and that every operation keeps the canonical form. -/

namespace Sys2Proof.Machine

theorem Memory.wfFrom_cons {lo k : Nat} {b : Byte} {m : Memory} :
    Memory.wfFrom lo ((k, b) :: m) = true ↔
      lo ≤ k ∧ k < Config.memSize ∧ b ≠ Config.memDefault ∧ Memory.wfFrom (k + 1) m = true := by
  simp [Memory.wfFrom, and_assoc]

theorem Memory.wfFrom_lower {lo lo' : Nat} {m : Memory} (h : lo' ≤ lo) (hm : Memory.wfFrom lo m = true) :
    Memory.wfFrom lo' m = true := by
  cases m with
  | nil => rfl
  | cons c m =>
    obtain ⟨k, b⟩ := c
    rw [Memory.wfFrom_cons] at hm ⊢
    exact ⟨by omega, hm.2⟩

/-- Below its first address a canonical memory reads as the default. -/
theorem Memory.read_below {lo a : Nat} {m : Memory} (hm : Memory.wfFrom lo m = true) (h : a < lo) :
    m.read a = Config.memDefault := by
  induction m generalizing lo with
  | nil => rfl
  | cons c m ih =>
    obtain ⟨k, b⟩ := c
    rw [Memory.wfFrom_cons] at hm
    have hk : k ≠ a := by omega
    simp only [Memory.read, if_neg hk]
    exact ih hm.2.2.2 (by omega)

theorem Memory.write_wfFrom {lo a : Nat} {b : Byte} {m : Memory} (hm : Memory.wfFrom lo m = true) (hlo : lo ≤ a)
    (ha : a < Config.memSize) : Memory.wfFrom lo (m.write a b) = true := by
  induction m generalizing lo with
  | nil =>
    unfold Memory.write
    split
    · rfl
    · exact Memory.wfFrom_cons.2 ⟨hlo, ha, ‹_›, rfl⟩
  | cons c m ih =>
    obtain ⟨k, c⟩ := c
    have hc := Memory.wfFrom_cons.1 hm
    unfold Memory.write
    split
    · split
      · exact hm
      · exact Memory.wfFrom_cons.2 ⟨hlo, ha, ‹_›, Memory.wfFrom_cons.2 ⟨by omega, hc.2⟩⟩
    · split
      · subst_vars
        split
        · exact Memory.wfFrom_lower (by omega) hc.2.2.2
        · exact Memory.wfFrom_cons.2 ⟨hlo, ha, ‹_›, hc.2.2.2⟩
      · exact Memory.wfFrom_cons.2 ⟨hc.1, hc.2.1, hc.2.2.1, ih hc.2.2.2 (by omega)⟩

/-- A write to an address of the address space keeps the canonical form. -/
theorem Memory.write_wf {a : Nat} {b : Byte} {m : Memory} (hm : m.wf = true) (ha : a < Config.memSize) :
    (m.write a b).wf = true := Memory.write_wfFrom hm (Nat.zero_le a) ha

theorem Memory.read_write_from {lo a k : Nat} {b : Byte} {m : Memory} (hm : Memory.wfFrom lo m = true) :
    (m.write a b).read k = if k = a then b else m.read k := by
  induction m generalizing lo with
  | nil =>
    by_cases hb : b = Config.memDefault <;> by_cases hk : k = a <;> simp [Memory.write, Memory.read, hb, hk]
    intro h; exact absurd h.symm hk
  | cons c m ih =>
    obtain ⟨j, c⟩ := c
    have hc := Memory.wfFrom_cons.1 hm
    unfold Memory.write
    split
    · rename_i haj
      have hlow : a < j → Memory.read ((j, c) :: m) a = Config.memDefault := fun h => by
        have : j ≠ a := by omega
        simp only [Memory.read, if_neg this]
        exact Memory.read_below hc.2.2.2 (by omega)
      split
      · by_cases hk : k = a
        · simp [hlow haj, *]
        · simp [hk]
      · by_cases hk : k = a
        · simp [hk, Memory.read]
        · simp only [Memory.read, if_neg hk, if_neg (Ne.symm hk)]
    · split
      · subst_vars
        split
        · by_cases hk : k = j
          · subst hk
            simp [Memory.read_below hc.2.2.2 (Nat.lt_succ_self k), *]
          · simp only [Memory.read, if_neg hk, if_neg (Ne.symm hk)]
        · by_cases hk : k = j
          · simp [hk, Memory.read]
          · simp only [Memory.read, if_neg hk, if_neg (Ne.symm hk)]
      · by_cases hj : j = k
        · have : k ≠ a := by omega
          simp only [Memory.read, if_pos hj, if_neg this]
        · simp only [Memory.read, if_neg hj]
          exact ih hc.2.2.2

/-- The law of reads and writes in a canonical memory. -/
theorem Memory.read_write {a k : Nat} {b : Byte} {m : Memory} (hm : m.wf = true) :
    (m.write a b).read k = if k = a then b else m.read k := Memory.read_write_from hm

/-- A write changes no other address, in any memory, canonical or not. -/
theorem Memory.read_write_other {a k : Nat} {b : Byte} (m : Memory) (h : k ≠ a) : (m.write a b).read k = m.read k := by
  have h' : a ≠ k := Ne.symm h
  induction m with
  | nil => unfold Memory.write; split <;> simp [Memory.read, h']
  | cons c m ih =>
    obtain ⟨j, c⟩ := c
    unfold Memory.write
    split
    · split <;> simp [Memory.read, h']
    · split
      · subst_vars
        split <;> simp [Memory.read, h']
      · simp only [Memory.read, ih]

/-! ### Several bytes -/

theorem Memory.readBytes_length (m : Memory) (a n : Nat) : (m.readBytes a n).length = n := by
  induction n generalizing a with
  | zero => rfl
  | succ n ih => simp [Memory.readBytes, ih]

theorem Memory.readBytes_get (m : Memory) (a n k : Nat) :
    (m.readBytes a n)[k]? = if k < n then some (m.read (a + k)) else none := by
  induction n generalizing a k with
  | zero => rfl
  | succ n ih =>
    cases k with
    | zero => simp [Memory.readBytes]
    | succ k =>
      have : a + 1 + k = a + (k + 1) := by omega
      simp [Memory.readBytes, ih, this]

/-- Storing bytes that lie in the address space keeps the canonical form. -/
theorem Memory.writeBytes_wf {m : Memory} {a : Nat} {bs : List Byte} (hm : m.wf = true)
    (h : bs = [] ∨ a + bs.length ≤ Config.memSize) : (m.writeBytes a bs).wf = true := by
  induction bs generalizing m a with
  | nil => exact hm
  | cons b bs ih =>
    have h' : a + (bs.length + 1) ≤ Config.memSize := by simpa using h
    exact ih (Memory.write_wf hm (by omega)) (.inr (by omega))

/-- What storing bytes does to a read: the byte stored there, or what was there before. -/
theorem Memory.read_writeBytes {m : Memory} {a k : Nat} {bs : List Byte} (hm : m.wf = true)
    (h : bs = [] ∨ a + bs.length ≤ Config.memSize) :
    (m.writeBytes a bs).read k = if a ≤ k then (bs[k - a]?).getD (m.read k) else m.read k := by
  induction bs generalizing m a with
  | nil => simp [Memory.writeBytes]
  | cons b bs ih =>
    have h' : a + (bs.length + 1) ≤ Config.memSize := by simpa using h
    rw [Memory.writeBytes, ih (Memory.write_wf hm (by omega)) (.inr (by omega)), Memory.read_write hm]
    rcases Nat.lt_trichotomy k a with hlt | heq | hgt
    · have h1 : ¬ a + 1 ≤ k := by omega
      have h2 : ¬ a ≤ k := by omega
      have h3 : k ≠ a := by omega
      simp [h1, h2, h3]
    · subst heq
      simp
    · have h1 : a + 1 ≤ k := by omega
      have h2 : a ≤ k := by omega
      have h3 : k ≠ a := by omega
      have h4 : k - a = (k - (a + 1)) + 1 := by omega
      simp only [h1, h2, h3, if_true, if_false, h4, List.getElem?_cons_succ]

/-- Storing bytes changes no address outside them, in any memory. -/
theorem Memory.read_writeBytes_outside (m : Memory) {a k : Nat} {bs : List Byte} (h : k < a ∨ a + bs.length ≤ k) :
    (m.writeBytes a bs).read k = m.read k := by
  induction bs generalizing m a with
  | nil => rfl
  | cons b bs ih =>
    have h' : k < a ∨ a + (bs.length + 1) ≤ k := by simpa using h
    rw [Memory.writeBytes, ih _ (by omega), Memory.read_write_other m (by omega)]

end Sys2Proof.Machine
end

