-- ==== Sys2Proof/Laws/State.lean ====
section
/-! SUPPORT. One lemma per field per update, so that no proof unfolds a record update. -/

namespace Sys2Proof.Machine

/-! ### setReg -/

@[simp] theorem setReg_v (s : State) (x : Reg) (b : Byte) : (s.setReg x b).v = s.v.set x.val b := rfl
@[simp] theorem setReg_i (s : State) (x : Reg) (b : Byte) : (s.setReg x b).i = s.i := rfl
@[simp] theorem setReg_pc (s : State) (x : Reg) (b : Byte) : (s.setReg x b).pc = s.pc := rfl
@[simp] theorem setReg_stack (s : State) (x : Reg) (b : Byte) : (s.setReg x b).stack = s.stack := rfl
@[simp] theorem setReg_sp (s : State) (x : Reg) (b : Byte) : (s.setReg x b).sp = s.sp := rfl
@[simp] theorem setReg_dt (s : State) (x : Reg) (b : Byte) : (s.setReg x b).dt = s.dt := rfl
@[simp] theorem setReg_st (s : State) (x : Reg) (b : Byte) : (s.setReg x b).st = s.st := rfl
@[simp] theorem setReg_keys (s : State) (x : Reg) (b : Byte) : (s.setReg x b).keys = s.keys := rfl
@[simp] theorem setReg_fb (s : State) (x : Reg) (b : Byte) : (s.setReg x b).fb = s.fb := rfl
@[simp] theorem setReg_mem (s : State) (x : Reg) (b : Byte) : (s.setReg x b).mem = s.mem := rfl
@[simp] theorem setReg_run (s : State) (x : Reg) (b : Byte) : (s.setReg x b).run = s.run := rfl
@[simp] theorem setReg_waitX (s : State) (x : Reg) (b : Byte) : (s.setReg x b).waitX = s.waitX := rfl
@[simp] theorem setReg_diag (s : State) (x : Reg) (b : Byte) : (s.setReg x b).diag = s.diag := rfl
@[simp] theorem setReg_drawEdge (s : State) (x : Reg) (b : Byte) : (s.setReg x b).drawEdge = s.drawEdge := rfl
@[simp] theorem setReg_draws (s : State) (x : Reg) (b : Byte) : (s.setReg x b).draws = s.draws := rfl
@[simp] theorem setReg_turns (s : State) (x : Reg) (b : Byte) : (s.setReg x b).turns = s.turns := rfl
@[simp] theorem setReg_beyond (s : State) (x : Reg) (b : Byte) : (s.setReg x b).beyond = s.beyond := rfl

/-! ### setIndex -/

@[simp] theorem setIndex_v (s : State) (w : Word) : (s.setIndex w).v = s.v := rfl
@[simp] theorem setIndex_i (s : State) (w : Word) : (s.setIndex w).i = w := rfl
@[simp] theorem setIndex_pc (s : State) (w : Word) : (s.setIndex w).pc = s.pc := rfl
@[simp] theorem setIndex_stack (s : State) (w : Word) : (s.setIndex w).stack = s.stack := rfl
@[simp] theorem setIndex_sp (s : State) (w : Word) : (s.setIndex w).sp = s.sp := rfl
@[simp] theorem setIndex_dt (s : State) (w : Word) : (s.setIndex w).dt = s.dt := rfl
@[simp] theorem setIndex_st (s : State) (w : Word) : (s.setIndex w).st = s.st := rfl
@[simp] theorem setIndex_keys (s : State) (w : Word) : (s.setIndex w).keys = s.keys := rfl
@[simp] theorem setIndex_fb (s : State) (w : Word) : (s.setIndex w).fb = s.fb := rfl
@[simp] theorem setIndex_mem (s : State) (w : Word) : (s.setIndex w).mem = s.mem := rfl
@[simp] theorem setIndex_run (s : State) (w : Word) : (s.setIndex w).run = s.run := rfl
@[simp] theorem setIndex_waitX (s : State) (w : Word) : (s.setIndex w).waitX = s.waitX := rfl
@[simp] theorem setIndex_diag (s : State) (w : Word) : (s.setIndex w).diag = s.diag := rfl
@[simp] theorem setIndex_drawEdge (s : State) (w : Word) : (s.setIndex w).drawEdge = s.drawEdge := rfl
@[simp] theorem setIndex_draws (s : State) (w : Word) : (s.setIndex w).draws = s.draws := rfl
@[simp] theorem setIndex_turns (s : State) (w : Word) : (s.setIndex w).turns = s.turns := rfl
@[simp] theorem setIndex_beyond (s : State) (w : Word) : (s.setIndex w).beyond = s.beyond := rfl

/-! ### setPc -/

@[simp] theorem setPc_v (s : State) (w : Word) : (s.setPc w).v = s.v := rfl
@[simp] theorem setPc_i (s : State) (w : Word) : (s.setPc w).i = s.i := rfl
@[simp] theorem setPc_pc (s : State) (w : Word) : (s.setPc w).pc = w := rfl
@[simp] theorem setPc_stack (s : State) (w : Word) : (s.setPc w).stack = s.stack := rfl
@[simp] theorem setPc_sp (s : State) (w : Word) : (s.setPc w).sp = s.sp := rfl
@[simp] theorem setPc_dt (s : State) (w : Word) : (s.setPc w).dt = s.dt := rfl
@[simp] theorem setPc_st (s : State) (w : Word) : (s.setPc w).st = s.st := rfl
@[simp] theorem setPc_keys (s : State) (w : Word) : (s.setPc w).keys = s.keys := rfl
@[simp] theorem setPc_fb (s : State) (w : Word) : (s.setPc w).fb = s.fb := rfl
@[simp] theorem setPc_mem (s : State) (w : Word) : (s.setPc w).mem = s.mem := rfl
@[simp] theorem setPc_run (s : State) (w : Word) : (s.setPc w).run = s.run := rfl
@[simp] theorem setPc_waitX (s : State) (w : Word) : (s.setPc w).waitX = s.waitX := rfl
@[simp] theorem setPc_diag (s : State) (w : Word) : (s.setPc w).diag = s.diag := rfl
@[simp] theorem setPc_drawEdge (s : State) (w : Word) : (s.setPc w).drawEdge = s.drawEdge := rfl
@[simp] theorem setPc_draws (s : State) (w : Word) : (s.setPc w).draws = s.draws := rfl
@[simp] theorem setPc_turns (s : State) (w : Word) : (s.setPc w).turns = s.turns := rfl
@[simp] theorem setPc_beyond (s : State) (w : Word) : (s.setPc w).beyond = s.beyond := rfl

/-! ### advance -/

@[simp] theorem advance_v (s : State) : (s.advance).v = s.v := rfl
@[simp] theorem advance_i (s : State) : (s.advance).i = s.i := rfl
@[simp] theorem advance_pc (s : State) : (s.advance).pc = s.pc + 2 := rfl
@[simp] theorem advance_stack (s : State) : (s.advance).stack = s.stack := rfl
@[simp] theorem advance_sp (s : State) : (s.advance).sp = s.sp := rfl
@[simp] theorem advance_dt (s : State) : (s.advance).dt = s.dt := rfl
@[simp] theorem advance_st (s : State) : (s.advance).st = s.st := rfl
@[simp] theorem advance_keys (s : State) : (s.advance).keys = s.keys := rfl
@[simp] theorem advance_fb (s : State) : (s.advance).fb = s.fb := rfl
@[simp] theorem advance_mem (s : State) : (s.advance).mem = s.mem := rfl
@[simp] theorem advance_run (s : State) : (s.advance).run = s.run := rfl
@[simp] theorem advance_waitX (s : State) : (s.advance).waitX = s.waitX := rfl
@[simp] theorem advance_diag (s : State) : (s.advance).diag = s.diag := rfl
@[simp] theorem advance_drawEdge (s : State) : (s.advance).drawEdge = s.drawEdge := rfl
@[simp] theorem advance_draws (s : State) : (s.advance).draws = s.draws := rfl
@[simp] theorem advance_turns (s : State) : (s.advance).turns = s.turns := rfl
@[simp] theorem advance_beyond (s : State) : (s.advance).beyond = s.beyond := rfl

/-! ### skipWhen -/

@[simp] theorem skipWhen_v (s : State) (c : Bool) : (s.skipWhen c).v = s.v := rfl
@[simp] theorem skipWhen_i (s : State) (c : Bool) : (s.skipWhen c).i = s.i := rfl
@[simp] theorem skipWhen_pc (s : State) (c : Bool) : (s.skipWhen c).pc = s.pc + if c then 4 else 2 := rfl
@[simp] theorem skipWhen_stack (s : State) (c : Bool) : (s.skipWhen c).stack = s.stack := rfl
@[simp] theorem skipWhen_sp (s : State) (c : Bool) : (s.skipWhen c).sp = s.sp := rfl
@[simp] theorem skipWhen_dt (s : State) (c : Bool) : (s.skipWhen c).dt = s.dt := rfl
@[simp] theorem skipWhen_st (s : State) (c : Bool) : (s.skipWhen c).st = s.st := rfl
@[simp] theorem skipWhen_keys (s : State) (c : Bool) : (s.skipWhen c).keys = s.keys := rfl
@[simp] theorem skipWhen_fb (s : State) (c : Bool) : (s.skipWhen c).fb = s.fb := rfl
@[simp] theorem skipWhen_mem (s : State) (c : Bool) : (s.skipWhen c).mem = s.mem := rfl
@[simp] theorem skipWhen_run (s : State) (c : Bool) : (s.skipWhen c).run = s.run := rfl
@[simp] theorem skipWhen_waitX (s : State) (c : Bool) : (s.skipWhen c).waitX = s.waitX := rfl
@[simp] theorem skipWhen_diag (s : State) (c : Bool) : (s.skipWhen c).diag = s.diag := rfl
@[simp] theorem skipWhen_drawEdge (s : State) (c : Bool) : (s.skipWhen c).drawEdge = s.drawEdge := rfl
@[simp] theorem skipWhen_draws (s : State) (c : Bool) : (s.skipWhen c).draws = s.draws := rfl
@[simp] theorem skipWhen_turns (s : State) (c : Bool) : (s.skipWhen c).turns = s.turns := rfl
@[simp] theorem skipWhen_beyond (s : State) (c : Bool) : (s.skipWhen c).beyond = s.beyond := rfl

/-! ### storeBytes -/

@[simp] theorem storeBytes_v (s : State) (a : Nat) (bs : List Byte) : (s.storeBytes a bs).v = s.v := rfl
@[simp] theorem storeBytes_i (s : State) (a : Nat) (bs : List Byte) : (s.storeBytes a bs).i = s.i := rfl
@[simp] theorem storeBytes_pc (s : State) (a : Nat) (bs : List Byte) : (s.storeBytes a bs).pc = s.pc := rfl
@[simp] theorem storeBytes_stack (s : State) (a : Nat) (bs : List Byte) : (s.storeBytes a bs).stack = s.stack := rfl
@[simp] theorem storeBytes_sp (s : State) (a : Nat) (bs : List Byte) : (s.storeBytes a bs).sp = s.sp := rfl
@[simp] theorem storeBytes_dt (s : State) (a : Nat) (bs : List Byte) : (s.storeBytes a bs).dt = s.dt := rfl
@[simp] theorem storeBytes_st (s : State) (a : Nat) (bs : List Byte) : (s.storeBytes a bs).st = s.st := rfl
@[simp] theorem storeBytes_keys (s : State) (a : Nat) (bs : List Byte) : (s.storeBytes a bs).keys = s.keys := rfl
@[simp] theorem storeBytes_fb (s : State) (a : Nat) (bs : List Byte) : (s.storeBytes a bs).fb = s.fb := rfl
@[simp] theorem storeBytes_mem (s : State) (a : Nat) (bs : List Byte) : (s.storeBytes a bs).mem = s.mem.writeBytes a bs := rfl
@[simp] theorem storeBytes_run (s : State) (a : Nat) (bs : List Byte) : (s.storeBytes a bs).run = s.run := rfl
@[simp] theorem storeBytes_waitX (s : State) (a : Nat) (bs : List Byte) : (s.storeBytes a bs).waitX = s.waitX := rfl
@[simp] theorem storeBytes_diag (s : State) (a : Nat) (bs : List Byte) : (s.storeBytes a bs).diag = s.diag := rfl
@[simp] theorem storeBytes_drawEdge (s : State) (a : Nat) (bs : List Byte) : (s.storeBytes a bs).drawEdge = s.drawEdge := rfl
@[simp] theorem storeBytes_draws (s : State) (a : Nat) (bs : List Byte) : (s.storeBytes a bs).draws = s.draws := rfl
@[simp] theorem storeBytes_turns (s : State) (a : Nat) (bs : List Byte) : (s.storeBytes a bs).turns = s.turns := rfl
@[simp] theorem storeBytes_beyond (s : State) (a : Nat) (bs : List Byte) : (s.storeBytes a bs).beyond = s.beyond := rfl

/-! ### setFlag -/

@[simp] theorem setFlag_v (s : State) (f : Bool) : (s.setFlag f).v = s.v.set 15 (flagByte f) := rfl
@[simp] theorem setFlag_i (s : State) (f : Bool) : (s.setFlag f).i = s.i := rfl
@[simp] theorem setFlag_pc (s : State) (f : Bool) : (s.setFlag f).pc = s.pc := rfl
@[simp] theorem setFlag_stack (s : State) (f : Bool) : (s.setFlag f).stack = s.stack := rfl
@[simp] theorem setFlag_sp (s : State) (f : Bool) : (s.setFlag f).sp = s.sp := rfl
@[simp] theorem setFlag_dt (s : State) (f : Bool) : (s.setFlag f).dt = s.dt := rfl
@[simp] theorem setFlag_st (s : State) (f : Bool) : (s.setFlag f).st = s.st := rfl
@[simp] theorem setFlag_keys (s : State) (f : Bool) : (s.setFlag f).keys = s.keys := rfl
@[simp] theorem setFlag_fb (s : State) (f : Bool) : (s.setFlag f).fb = s.fb := rfl
@[simp] theorem setFlag_mem (s : State) (f : Bool) : (s.setFlag f).mem = s.mem := rfl
@[simp] theorem setFlag_run (s : State) (f : Bool) : (s.setFlag f).run = s.run := rfl
@[simp] theorem setFlag_waitX (s : State) (f : Bool) : (s.setFlag f).waitX = s.waitX := rfl
@[simp] theorem setFlag_diag (s : State) (f : Bool) : (s.setFlag f).diag = s.diag := rfl
@[simp] theorem setFlag_drawEdge (s : State) (f : Bool) : (s.setFlag f).drawEdge = s.drawEdge := rfl
@[simp] theorem setFlag_draws (s : State) (f : Bool) : (s.setFlag f).draws = s.draws := rfl
@[simp] theorem setFlag_turns (s : State) (f : Bool) : (s.setFlag f).turns = s.turns := rfl
@[simp] theorem setFlag_beyond (s : State) (f : Bool) : (s.setFlag f).beyond = s.beyond := rfl

/-! ### raise -/

@[simp] theorem raise_v (s : State) (w : Word) (c : Cause) : (s.raise w c).v = s.v := rfl
@[simp] theorem raise_i (s : State) (w : Word) (c : Cause) : (s.raise w c).i = s.i := rfl
@[simp] theorem raise_pc (s : State) (w : Word) (c : Cause) : (s.raise w c).pc = s.pc := rfl
@[simp] theorem raise_stack (s : State) (w : Word) (c : Cause) : (s.raise w c).stack = s.stack := rfl
@[simp] theorem raise_sp (s : State) (w : Word) (c : Cause) : (s.raise w c).sp = s.sp := rfl
@[simp] theorem raise_dt (s : State) (w : Word) (c : Cause) : (s.raise w c).dt = s.dt := rfl
@[simp] theorem raise_st (s : State) (w : Word) (c : Cause) : (s.raise w c).st = s.st := rfl
@[simp] theorem raise_keys (s : State) (w : Word) (c : Cause) : (s.raise w c).keys = s.keys := rfl
@[simp] theorem raise_fb (s : State) (w : Word) (c : Cause) : (s.raise w c).fb = s.fb := rfl
@[simp] theorem raise_mem (s : State) (w : Word) (c : Cause) : (s.raise w c).mem = s.mem := rfl
@[simp] theorem raise_run (s : State) (w : Word) (c : Cause) : (s.raise w c).run = .stopped := rfl
@[simp] theorem raise_waitX (s : State) (w : Word) (c : Cause) : (s.raise w c).waitX = s.waitX := rfl
@[simp] theorem raise_diag (s : State) (w : Word) (c : Cause) : (s.raise w c).diag = c.record w s.pc := rfl
@[simp] theorem raise_drawEdge (s : State) (w : Word) (c : Cause) : (s.raise w c).drawEdge = s.drawEdge := rfl
@[simp] theorem raise_draws (s : State) (w : Word) (c : Cause) : (s.raise w c).draws = s.draws := rfl
@[simp] theorem raise_turns (s : State) (w : Word) (c : Cause) : (s.raise w c).turns = s.turns := rfl
@[simp] theorem raise_beyond (s : State) (w : Word) (c : Cause) : (s.raise w c).beyond = s.beyond := rfl

/-! ### tick -/

@[simp] theorem tick_v (s : State) : (s.tick).v = s.v := rfl
@[simp] theorem tick_i (s : State) : (s.tick).i = s.i := rfl
@[simp] theorem tick_pc (s : State) : (s.tick).pc = s.pc := rfl
@[simp] theorem tick_stack (s : State) : (s.tick).stack = s.stack := rfl
@[simp] theorem tick_sp (s : State) : (s.tick).sp = s.sp := rfl
@[simp] theorem tick_dt (s : State) : (s.tick).dt = countDown s.dt := rfl
@[simp] theorem tick_st (s : State) : (s.tick).st = countDown s.st := rfl
@[simp] theorem tick_keys (s : State) : (s.tick).keys = s.keys := rfl
@[simp] theorem tick_fb (s : State) : (s.tick).fb = s.fb := rfl
@[simp] theorem tick_mem (s : State) : (s.tick).mem = s.mem := rfl
@[simp] theorem tick_run (s : State) : (s.tick).run = s.run := rfl
@[simp] theorem tick_waitX (s : State) : (s.tick).waitX = s.waitX := rfl
@[simp] theorem tick_diag (s : State) : (s.tick).diag = s.diag := rfl
@[simp] theorem tick_drawEdge (s : State) : (s.tick).drawEdge = s.drawEdge := rfl
@[simp] theorem tick_draws (s : State) : (s.tick).draws = s.draws := rfl
@[simp] theorem tick_turns (s : State) : (s.tick).turns = s.turns := rfl
@[simp] theorem tick_beyond (s : State) : (s.tick).beyond = s.beyond := rfl

/-! ### setKeys -/

@[simp] theorem setKeys_v (s : State) (ks : Vector Bool 16) : (s.setKeys ks).v = s.v := rfl
@[simp] theorem setKeys_i (s : State) (ks : Vector Bool 16) : (s.setKeys ks).i = s.i := rfl
@[simp] theorem setKeys_pc (s : State) (ks : Vector Bool 16) : (s.setKeys ks).pc = s.pc := rfl
@[simp] theorem setKeys_stack (s : State) (ks : Vector Bool 16) : (s.setKeys ks).stack = s.stack := rfl
@[simp] theorem setKeys_sp (s : State) (ks : Vector Bool 16) : (s.setKeys ks).sp = s.sp := rfl
@[simp] theorem setKeys_dt (s : State) (ks : Vector Bool 16) : (s.setKeys ks).dt = s.dt := rfl
@[simp] theorem setKeys_st (s : State) (ks : Vector Bool 16) : (s.setKeys ks).st = s.st := rfl
@[simp] theorem setKeys_keys (s : State) (ks : Vector Bool 16) : (s.setKeys ks).keys = ks := rfl
@[simp] theorem setKeys_fb (s : State) (ks : Vector Bool 16) : (s.setKeys ks).fb = s.fb := rfl
@[simp] theorem setKeys_mem (s : State) (ks : Vector Bool 16) : (s.setKeys ks).mem = s.mem := rfl
@[simp] theorem setKeys_run (s : State) (ks : Vector Bool 16) : (s.setKeys ks).run = s.run := rfl
@[simp] theorem setKeys_waitX (s : State) (ks : Vector Bool 16) : (s.setKeys ks).waitX = s.waitX := rfl
@[simp] theorem setKeys_diag (s : State) (ks : Vector Bool 16) : (s.setKeys ks).diag = s.diag := rfl
@[simp] theorem setKeys_drawEdge (s : State) (ks : Vector Bool 16) : (s.setKeys ks).drawEdge = s.drawEdge := rfl
@[simp] theorem setKeys_draws (s : State) (ks : Vector Bool 16) : (s.setKeys ks).draws = s.draws := rfl
@[simp] theorem setKeys_turns (s : State) (ks : Vector Bool 16) : (s.setKeys ks).turns = s.turns := rfl
@[simp] theorem setKeys_beyond (s : State) (ks : Vector Bool 16) : (s.setKeys ks).beyond = s.beyond := rfl

/-! ### The schedule -/

@[simp] theorem split_always (block : List Turn) : (Beyond.always block).split = (block, .always block) := rfl
@[simp] theorem split_free (n : Nat) : (Beyond.free n).split = (Config.turnsBefore n, .free (n + 1)) := rfl

/-- A listed turn comes next. -/
theorem nextTurn_listed {s : State} {turn : Turn} {rest : List Turn} (h : s.turns = turn :: rest) :
    s.nextTurn = (turn, { s with turns := rest }) := by
  simp [State.nextTurn, h]

/-- With none listed and none before the next cycle, the core's cycle comes next. -/
theorem nextTurn_core {s : State} {b : Beyond} (h : s.turns = []) (hb : s.beyond.split = ([], b)) :
    s.nextTurn = (.core, { s with beyond := b }) := by
  simp [State.nextTurn, h, hb]

/-- With none listed, the turns before the next cycle are listed, that cycle after them. -/
theorem nextTurn_block {s : State} {turn : Turn} {rest : List Turn} {b : Beyond} (h : s.turns = [])
    (hb : s.beyond.split = (turn :: rest, b)) :
    s.nextTurn = (turn, { s with turns := rest ++ [.core], beyond := b }) := by
  simp [State.nextTurn, h, hb]

end Sys2Proof.Machine
end

