-- ==== Sys2Proof/Laws/Ops.lean ====
section
/-! SUPPORT. For each shared operation, once, what it does. -/

namespace Sys2Proof.Machine

/-! ### Registers -/

@[simp] theorem reg_setReg (s : State) (x r : Reg) (b : Byte) : (s.setReg x b).reg r = if r = x then b else s.reg r := by
  by_cases h : r = x
  · subst h; simp [State.reg, State.setReg]
  · have : x.val ≠ r.val := fun e => h (Fin.ext e.symm)
    simp [State.reg, State.setReg, h, this]

@[simp] theorem reg_setFlag (s : State) (r : Reg) (f : Bool) :
    (s.setFlag f).reg r = if r = 15 then flagByte f else s.reg r := reg_setReg s 15 r _

@[simp] theorem reg_setIndex (s : State) (w : Word) (r : Reg) : (s.setIndex w).reg r = s.reg r := rfl
@[simp] theorem reg_setPc (s : State) (w : Word) (r : Reg) : (s.setPc w).reg r = s.reg r := rfl
@[simp] theorem reg_advance (s : State) (r : Reg) : s.advance.reg r = s.reg r := rfl
@[simp] theorem reg_skipWhen (s : State) (c : Bool) (r : Reg) : (s.skipWhen c).reg r = s.reg r := rfl
@[simp] theorem reg_storeBytes (s : State) (a : Nat) (bs : List Byte) (r : Reg) : (s.storeBytes a bs).reg r = s.reg r := rfl
@[simp] theorem reg_raise (s : State) (w : Word) (c : Cause) (r : Reg) : (s.raise w c).reg r = s.reg r := rfl

/-- The result is seen in every register but the flag register, which holds the flag (43_alu.md R141). -/
theorem reg_setResultAndFlag (s : State) (x r : Reg) (b : Byte) (f : Bool) :
    (s.setResultAndFlag x b f).reg r = if r = 15 then flagByte f else if r = x then b else s.reg r := by
  simp [State.setResultAndFlag]

theorem flagByte_zero_or_one (f : Bool) : flagByte f = 0 ∨ flagByte f = 1 := by cases f <;> simp [flagByte]

/-! ### The call stack -/

theorem push_room {s : State} (h : s.sp.val < 16) (w : Word) :
    s.push w = .ok { s with stack := s.stack.set s.sp.val w, sp := ⟨s.sp.val + 1, by omega⟩ } := by
  simp [State.push, h]

theorem push_full {s : State} (h : s.sp.val = 16) (w : Word) : s.push w = .error .stackOverflow := by
  simp [State.push, h]

theorem pop_some {s : State} (h : 0 < s.sp.val) :
    s.pop = .ok (s.stack[s.sp.val - 1], { s with sp := ⟨s.sp.val - 1, by omega⟩ }) := by
  simp [State.pop, h]

theorem pop_empty {s : State} (h : s.sp.val = 0) : s.pop = .error .stackUnderflow := by
  simp [State.pop, h]

/-! ### Ranges and the fetch -/

/-- An access is in range when it touches no byte or its last address is at most 4095. -/
theorem rangeCause_none {k : AccessKind} {a n : Nat} : rangeCause k a n = none ↔ n = 0 ∨ a + n ≤ 4096 := by
  by_cases h : n ≠ 0 ∧ Config.memSize ≤ a + n - 1
  · simp only [rangeCause, if_pos h, reduceCtorEq, false_iff]
    simp only [Config.memSize] at h
    omega
  · simp only [rangeCause, if_neg h, true_iff]
    simp only [Config.memSize] at h
    omega

theorem rangeCause_some {k : AccessKind} {a n : Nat} {c : Cause} :
    rangeCause k a n = some c ↔ n ≠ 0 ∧ 4096 < a + n ∧ c = .addressOutOfRange k (max a 4096) := by
  by_cases h : n ≠ 0 ∧ Config.memSize ≤ a + n - 1
  · simp only [rangeCause, if_pos h, Option.some.injEq]
    simp only [Config.memSize] at h ⊢
    exact ⟨fun e => ⟨h.1, by omega, e.symm⟩, fun e => e.2.2.symm⟩
  · simp only [rangeCause, if_neg h, reduceCtorEq, false_iff]
    simp only [Config.memSize] at h
    omega

theorem whenInRange_ok {k : AccessKind} {a n : Nat} {t : State} (h : n = 0 ∨ a + n ≤ 4096) : whenInRange k a n t = .ok t := by
  simp [whenInRange, rangeCause_none.2 h]

theorem whenInRange_error {k : AccessKind} {a n : Nat} {t : State} (h0 : n ≠ 0) (h : 4096 < a + n) :
    whenInRange k a n t = .error (.addressOutOfRange k (max a 4096)) := by
  simp [whenInRange, rangeCause_some.2 ⟨h0, h, rfl⟩]

theorem fetch_error {s : State} (h : 4095 ≤ s.pc.toNat) :
    s.fetch = .error (.addressOutOfRange .fetch (max s.pc.toNat 4096)) := by
  have := rangeCause_some (k := .fetch) (a := s.pc.toNat) (n := 2) |>.2 ⟨by decide, by omega, rfl⟩
  simp [State.fetch, this]

/-! ### The end of an instruction that may fault -/

@[simp] theorem orRaise_ok (s t : State) (w : Word) : s.orRaise w (.ok t) = .next t := rfl
@[simp] theorem orRaise_error (s : State) (w : Word) (c : Cause) : s.orRaise w (.error c) = .next (s.raise w c) := rfl

/-- Such an instruction always has a next state. -/
theorem orRaise_next (s : State) (w : Word) (r : Except Cause State) : ∃ t, s.orRaise w r = .next t := by
  cases r <;> exact ⟨_, rfl⟩

/-- Taking a fault writes `run` and `diag` only (60_exceptions.md R212). -/
theorem raise_keeps (s : State) (w : Word) (c : Cause) : Keeps Changes.fault s (s.raise w c) := by
  constructor <;> intros <;> first | rfl | exact ⟨rfl, rfl⟩ | contradiction

/-! ### Loading registers -/

theorem loadRegs_eq (s : State) (a : Nat) (ks : List Reg) :
    s.loadRegs a ks = { s with v := (s.loadRegs a ks).v } := by
  induction ks generalizing s with
  | nil => rfl
  | cons k ks ih => rw [State.loadRegs, ih]; rfl

/-- A register in the list holds its byte of memory, another one what it held. -/
theorem reg_loadRegs (s : State) (a : Nat) (ks : List Reg) (r : Reg) :
    (s.loadRegs a ks).reg r = if r ∈ ks then s.mem.read (a + r.val) else s.reg r := by
  induction ks generalizing s with
  | nil => rfl
  | cons k ks ih =>
    rw [State.loadRegs, ih]
    by_cases h1 : r ∈ ks
    · simp [h1]
    · by_cases h2 : r = k <;> simp [h1, h2]

@[simp] theorem mem_regsUpTo {x k : Reg} : k ∈ regsUpTo x ↔ k ≤ x := by
  simp [regsUpTo]

theorem regBytes_length (s : State) (x : Reg) : (s.regBytes x).length = x.val + 1 := by
  have : ∀ x : Reg, (regsUpTo x).length = x.val + 1 := by decide
  simp [State.regBytes, this]

theorem regBytes_get (s : State) {x k : Reg} (h : k ≤ x) : (s.regBytes x)[k.val]? = some (s.reg k) := by
  have : ∀ x k : Reg, k ≤ x → (regsUpTo x)[k.val]? = some k := by decide
  simp [State.regBytes, this x k h]

/-! ### Keys -/

theorem keyAt_ok {s : State} {b : Byte} {k : Reg} (h : b.toNat = k.val) : s.keyAt b = .ok (s.key k) := by
  have hk : b.toNat < 16 := by omega
  have : (⟨b.toNat, hk⟩ : Reg) = k := Fin.ext h
  simp [State.keyAt, hk, this]

theorem keyAt_error {s : State} {b : Byte} (h : 15 < b.toNat) : s.keyAt b = .error (.keyIndexOutOfRange b) := by
  have hk : ¬ b.toNat < 16 := by omega
  simp [State.keyAt, hk]

/-- A draw gives a member of the set, whichever (00_scope.md R13). -/
theorem drawFrom_mem (n : Nat) (k : Reg) (ks : List Reg) : drawFrom n k ks ∈ k :: ks := by
  cases ks with
  | nil => simp [drawFrom]
  | cons k' ks =>
    have h : Config.keyDraw n % (ks.length + 2) < (k :: k' :: ks).length := by
      exact Nat.mod_lt _ (Nat.succ_pos _)
    simp only [drawFrom]
    rw [List.getD_eq_getElem _ _ h]
    exact List.getElem_mem h

theorem mem_pressedKeys {s : State} {k : Reg} : k ∈ s.pressedKeys ↔ s.key k = true := by
  simp [State.pressedKeys]

theorem takeKey_none {s : State} (x : Reg) (h : s.noKey) : s.takeKey x = none := by
  have : s.pressedKeys = [] := by
    apply List.eq_nil_iff_forall_not_mem.2
    intro k hk
    rw [mem_pressedKeys, h k] at hk
    contradiction
  simp [State.takeKey, this]

/-- A completion of wait-for-key: the index of a pressed key is stored, one draw is used, `pc` advances. -/
theorem takeKey_some {s : State} (x : Reg) (h : ¬ s.noKey) : ∃ k : Reg, s.key k = true ∧
    s.takeKey x = some { (s.setReg x (BitVec.ofNat 8 k.val)).advance with draws := s.draws + 1 } := by
  cases hp : s.pressedKeys with
  | nil =>
    refine absurd (fun k => ?_) h
    have : k ∉ s.pressedKeys := by simp [hp]
    rw [mem_pressedKeys] at this
    exact Bool.eq_false_iff.2 this
  | cons k ks =>
    refine ⟨drawFrom s.draws k ks, ?_, by simp [State.takeKey, hp]⟩
    rw [← mem_pressedKeys, hp]
    exact drawFrom_mem _ _ _

theorem any_key_iff {s : State} : ((List.finRange 16).any fun k => s.key k) = true ↔ ¬ s.noKey := by
  simp [State.noKey]

/-! ### The framebuffer -/

theorem pixel_toggle (fb : Framebuffer) (p q : Pixel) :
    (fb.toggle p).pixel q = if q = p then !fb.pixel p else fb.pixel q := by
  obtain ⟨x, y⟩ := p
  obtain ⟨x', y'⟩ := q
  by_cases hy : y' = y
  · subst hy
    by_cases hx : x' = x
    · subst hx
      simp [Framebuffer.toggle, Framebuffer.pixel]
    · have : ¬ x'.val = x.val := fun e => hx (Fin.ext e)
      simp [Framebuffer.toggle, Framebuffer.pixel, hx, this]
  · have : y.val ≠ y'.val := fun e => hy (Fin.ext e.symm)
    simp [Framebuffer.toggle, Framebuffer.pixel, hy, this]

@[simp] theorem pixel_clear (p : Pixel) : Framebuffer.clear.pixel p = false := by
  simp [Framebuffer.clear, Framebuffer.pixel]

/-- Two framebuffers with the same pixels are equal. -/
theorem Framebuffer.ext_pixel {fb fb' : Framebuffer} (h : ∀ p, fb.pixel p = fb'.pixel p) : fb = fb' := by
  apply Vector.ext
  intro y hy
  apply BitVec.eq_of_getLsbD_eq
  intro x hx
  exact h (⟨x, hx⟩, ⟨y, hy⟩)

/-- Drawing over distinct cells toggles exactly those. -/
theorem pixel_composite_from (acc : Framebuffer × Bool) (ps : List Pixel) (hn : ps.Nodup) (q : Pixel) :
    (ps.foldl compositeStep acc).1.pixel q = if q ∈ ps then !acc.1.pixel q else acc.1.pixel q := by
  induction ps generalizing acc with
  | nil => rfl
  | cons p ps ih =>
    obtain ⟨hp, hn⟩ := List.nodup_cons.1 hn
    rw [List.foldl_cons, ih _ hn]
    simp only [compositeStep, pixel_toggle, List.mem_cons]
    by_cases h1 : q = p
    · subst h1; simp [hp]
    · simp [h1]

/-- A collision is reported when there was one before or a cell drawn over is set. -/
theorem collision_composite_from (acc : Framebuffer × Bool) (ps : List Pixel) (hn : ps.Nodup) :
    (ps.foldl compositeStep acc).2 = (acc.2 || ps.any fun p => acc.1.pixel p) := by
  induction ps generalizing acc with
  | nil => simp
  | cons p ps ih =>
    obtain ⟨hp, hn⟩ := List.nodup_cons.1 hn
    rw [List.foldl_cons, ih _ hn]
    have : (ps.any fun q => (acc.1.toggle p).pixel q) = ps.any fun q => acc.1.pixel q := by
      rw [Bool.eq_iff_iff, List.any_eq_true, List.any_eq_true]
      refine exists_congr fun q => and_congr_right fun hq => ?_
      rw [pixel_toggle, if_neg (fun e : q = p => hp (e ▸ hq))]
    simp [compositeStep, this, Bool.or_assoc]

theorem pixel_composite (fb : Framebuffer) (ps : List Pixel) (hn : ps.Nodup) (q : Pixel) :
    (composite fb ps).1.pixel q = if q ∈ ps then !fb.pixel q else fb.pixel q :=
  pixel_composite_from (fb, false) ps hn q

theorem collision_composite (fb : Framebuffer) (ps : List Pixel) (hn : ps.Nodup) :
    (composite fb ps).2 = ps.any fun p => fb.pixel p := by
  rw [composite, collision_composite_from _ _ hn]; rfl

end Sys2Proof.Machine
end

