-- ==== Sys2Proof/Laws/Frames.lean ====
section
/-! SUPPORT. The frames of the shared state updates, said with `Keeps`: what one update followed by the program counter's move
leaves unchanged. -/

namespace Sys2Proof.Machine

/-- A write of `pc` alone. -/
theorem keeps_setPc (s : State) (w : Word) : Keeps Changes.pcOnly s (s.setPc w) := by
  constructor <;> intros <;> simp_all [Changes.pcOnly]

/-- A write of one general register. -/
theorem keeps_setReg (s : State) (x : Reg) (b : Byte) : Keeps (Changes.oneReg x) s (s.setReg x b).advance := by
  constructor <;> intros <;> simp_all [Changes.oneReg]

/-- A write of a result and then of the flag. -/
theorem keeps_setResultAndFlag (s : State) (x : Reg) (b : Byte) (f : Bool) :
    Keeps (Changes.regAndFlag x) s (s.setResultAndFlag x b f).advance := by
  constructor <;> intros <;> first | rfl | exact ⟨rfl, rfl⟩ | simp_all [Changes.regAndFlag, reg_setResultAndFlag]

/-- A write of `I`. -/
theorem keeps_setIndex (s : State) (w : Word) : Keeps { index := true } s (s.setIndex w).advance := by
  constructor <;> intros <;> simp_all

/-- A store of some bytes. -/
theorem keeps_storeBytes (s : State) (a : Nat) (bs : List Byte) :
    Keeps (Changes.bytes a bs.length) s (s.storeBytes a bs).advance := by
  constructor <;> intros <;> first | rfl | exact ⟨rfl, rfl⟩ | skip
  rename_i k hk
  simp only [Changes.bytes, Bool.and_eq_false_iff, decide_eq_false_iff_not] at hk
  exact Memory.read_writeBytes_outside _ (by omega)

end Sys2Proof.Machine
end

