-- ==== Sys2Proof/Laws/PerInstr.lean ====
section
/-! SUPPORT. Laws stated instruction by instruction (LAWS.json "per_instruction"): decoding the canonical word of a well-formed
instruction gives the instruction back. -/

namespace Sys2Proof.Laws.RoundTrip

/-- The decoder reads the instruction from its canonical word (30_encoding.md R75, R79). -/
def Statement (i : Instr) : Prop := i.wellFormed = true → decodeWord (encode i) = .ok i

theorem clearScreen : Statement .clearScreen := fun _ => by decide

theorem ret : Statement .ret := fun _ => by decide

theorem callLegacy (nnn : BitVec 12) : Statement (.callLegacy nnn) := fun h => by
  have h' : nnn ≠ 0x0E0#12 ∧ nnn ≠ 0x0EE#12 := by simpa [Instr.wellFormed, legacyTarget] using h
  simp [encode, decodeWord, decodeClass0, opClass_packNNN, fieldNNN_packNNN, h']

theorem jump (nnn : BitVec 12) : Statement (.jump nnn) := fun _ => by simp [encode, decodeWord, opClass_packNNN, fieldNNN_packNNN]

theorem call (nnn : BitVec 12) : Statement (.call nnn) := fun _ => by simp [encode, decodeWord, opClass_packNNN, fieldNNN_packNNN]

theorem skipIfEqualImmediate (x : Reg) (nn : Byte) : Statement (.skipIfEqualImmediate x nn) := fun _ => by simp [encode, decodeWord, opClass_packXNN, fieldX_packXNN, fieldNN_packXNN]

theorem skipIfNotEqualImmediate (x : Reg) (nn : Byte) : Statement (.skipIfNotEqualImmediate x nn) := fun _ => by simp [encode, decodeWord, opClass_packXNN, fieldX_packXNN, fieldNN_packXNN]

theorem skipIfRegistersEqual (x y : Reg) : Statement (.skipIfRegistersEqual x y) := fun _ => by simp [encode, decodeWord, opClass_packXYN, fieldX_packXYN, fieldY_packXYN]

theorem setImmediate (x : Reg) (nn : Byte) : Statement (.setImmediate x nn) := fun _ => by simp [encode, decodeWord, opClass_packXNN, fieldX_packXNN, fieldNN_packXNN]

theorem addImmediate (x : Reg) (nn : Byte) : Statement (.addImmediate x nn) := fun _ => by simp [encode, decodeWord, opClass_packXNN, fieldX_packXNN, fieldNN_packXNN]

theorem setRegister (x y : Reg) : Statement (.setRegister x y) := fun _ => by simp [encode, decodeWord, decodeClass8, opClass_packXYN, fieldX_packXYN, fieldY_packXYN, fieldN_packXYN]

theorem orRegisters (x y : Reg) : Statement (.orRegisters x y) := fun _ => by simp [encode, decodeWord, decodeClass8, opClass_packXYN, fieldX_packXYN, fieldY_packXYN, fieldN_packXYN]

theorem andRegisters (x y : Reg) : Statement (.andRegisters x y) := fun _ => by simp [encode, decodeWord, decodeClass8, opClass_packXYN, fieldX_packXYN, fieldY_packXYN, fieldN_packXYN]

theorem xorRegisters (x y : Reg) : Statement (.xorRegisters x y) := fun _ => by simp [encode, decodeWord, decodeClass8, opClass_packXYN, fieldX_packXYN, fieldY_packXYN, fieldN_packXYN]

theorem addRegisters (x y : Reg) : Statement (.addRegisters x y) := fun _ => by simp [encode, decodeWord, decodeClass8, opClass_packXYN, fieldX_packXYN, fieldY_packXYN, fieldN_packXYN]

theorem subRegisters (x y : Reg) : Statement (.subRegisters x y) := fun _ => by simp [encode, decodeWord, decodeClass8, opClass_packXYN, fieldX_packXYN, fieldY_packXYN, fieldN_packXYN]

theorem shiftRight (x : Reg) : Statement (.shiftRight x) := fun _ => by simp [encode, decodeWord, decodeClass8, opClass_packXYN, fieldX_packXYN, fieldN_packXYN]

theorem subRegistersReversed (x y : Reg) : Statement (.subRegistersReversed x y) := fun _ => by simp [encode, decodeWord, decodeClass8, opClass_packXYN, fieldX_packXYN, fieldY_packXYN, fieldN_packXYN]

theorem shiftLeft (x : Reg) : Statement (.shiftLeft x) := fun _ => by simp [encode, decodeWord, decodeClass8, opClass_packXYN, fieldX_packXYN, fieldN_packXYN]

theorem skipIfRegistersNotEqual (x y : Reg) : Statement (.skipIfRegistersNotEqual x y) := fun _ => by simp [encode, decodeWord, opClass_packXYN, fieldX_packXYN, fieldY_packXYN]

theorem setIndex (nnn : BitVec 12) : Statement (.setIndex nnn) := fun _ => by simp [encode, decodeWord, opClass_packNNN, fieldNNN_packNNN]

theorem jumpWithOffset (nnn : BitVec 12) : Statement (.jumpWithOffset nnn) := fun _ => by simp [encode, decodeWord, opClass_packNNN, fieldNNN_packNNN]

theorem randomAnd (x : Reg) (nn : Byte) : Statement (.randomAnd x nn) := fun _ => by simp [encode, decodeWord, opClass_packXNN, fieldX_packXNN, fieldNN_packXNN]

theorem drawSprite (x y : Reg) (n : Fin 16) : Statement (.drawSprite x y n) := fun _ => by
  have hn := fieldN_packXYN (c := 0xD) (by decide) n.isLt x y
  simp [encode, decodeWord, opClass_packXYN, fieldX_packXYN, fieldY_packXYN, Fin.ext hn]

theorem skipIfKeyPressed (x : Reg) : Statement (.skipIfKeyPressed x) := fun _ => by simp [encode, decodeWord, decodeClass14, opClass_packXNN, fieldX_packXNN, fieldNN_packXNN]

theorem skipIfKeyNotPressed (x : Reg) : Statement (.skipIfKeyNotPressed x) := fun _ => by simp [encode, decodeWord, decodeClass14, opClass_packXNN, fieldX_packXNN, fieldNN_packXNN]

theorem readDelayTimer (x : Reg) : Statement (.readDelayTimer x) := fun _ => by simp [encode, decodeWord, decodeClass15, opClass_packXNN, fieldX_packXNN, fieldNN_packXNN]

theorem waitForKey (x : Reg) : Statement (.waitForKey x) := fun _ => by simp [encode, decodeWord, decodeClass15, opClass_packXNN, fieldX_packXNN, fieldNN_packXNN]

theorem setDelayTimer (x : Reg) : Statement (.setDelayTimer x) := fun _ => by simp [encode, decodeWord, decodeClass15, opClass_packXNN, fieldX_packXNN, fieldNN_packXNN]

theorem setSoundTimer (x : Reg) : Statement (.setSoundTimer x) := fun _ => by simp [encode, decodeWord, decodeClass15, opClass_packXNN, fieldX_packXNN, fieldNN_packXNN]

theorem addToIndex (x : Reg) : Statement (.addToIndex x) := fun _ => by simp [encode, decodeWord, decodeClass15, opClass_packXNN, fieldX_packXNN, fieldNN_packXNN]

theorem setIndexToSpriteChar (x : Reg) : Statement (.setIndexToSpriteChar x) := fun _ => by simp [encode, decodeWord, decodeClass15, opClass_packXNN, fieldX_packXNN, fieldNN_packXNN]

theorem storeBcd (x : Reg) : Statement (.storeBcd x) := fun _ => by simp [encode, decodeWord, decodeClass15, opClass_packXNN, fieldX_packXNN, fieldNN_packXNN]

theorem registerDump (x : Reg) : Statement (.registerDump x) := fun _ => by simp [encode, decodeWord, decodeClass15, opClass_packXNN, fieldX_packXNN, fieldNN_packXNN]

theorem registerLoad (x : Reg) : Statement (.registerLoad x) := fun _ => by simp [encode, decodeWord, decodeClass15, opClass_packXNN, fieldX_packXNN, fieldNN_packXNN]

end Sys2Proof.Laws.RoundTrip
end

