-- ==== Sys2Proof/Laws/Sprite.lean ====
section
/-! SUPPORT. The sprite compositor: which targets a sprite has, that they are distinct, what the edge policies make of them. -/

namespace Sys2Proof.Machine

theorem mem_rowTargets {vx y : Nat} {row : Byte} {p : Nat × Nat} :
    p ∈ rowTargets vx y row ↔ ∃ c, c < 8 ∧ row.getLsbD (7 - c) = true ∧ p = (vx + c, y) := by
  simp only [rowTargets, List.mem_map, List.mem_filter, List.mem_range]
  exact ⟨fun ⟨c, h, e⟩ => ⟨c, h.1, h.2, e.symm⟩, fun ⟨c, h1, h2, e⟩ => ⟨c, ⟨h1, h2⟩, e.symm⟩⟩

/-- The targets are the coordinates of the set bits (46_display.md R183). -/
theorem mem_targets {vx vy : Nat} {rows : List Byte} {p : Nat × Nat} :
    p ∈ targets vx vy rows ↔
      ∃ r c row, rows[r]? = some row ∧ c < 8 ∧ row.getLsbD (7 - c) = true ∧ p = (vx + c, vy + r) := by
  induction rows generalizing vy with
  | nil => simp [targets]
  | cons row rows ih =>
    rw [targets, List.mem_append, mem_rowTargets, ih]
    constructor
    · rintro (⟨c, h1, h2, e⟩ | ⟨r, c, row', hr, h1, h2, e⟩)
      · exact ⟨0, c, row, rfl, h1, h2, e⟩
      · exact ⟨r + 1, c, row', hr, h1, h2, by rw [e]; congr 1; omega⟩
    · rintro ⟨r, c, row', hr, h1, h2, e⟩
      cases r with
      | zero =>
        obtain rfl : row = row' := by simpa using hr
        exact .inl ⟨c, h1, h2, e⟩
      | succ r => exact .inr ⟨r, c, row', by simpa using hr, h1, h2, by rw [e]; congr 1; omega⟩

theorem rowTargets_nodup (vx y : Nat) (row : Byte) : (rowTargets vx y row).Nodup := by
  apply List.Nodup.map
  · intro a b h
    have : vx + a = vx + b := congrArg Prod.fst h
    omega
  · exact List.Nodup.filter _ List.nodup_range

/-- No two set bits of a sprite have the same target. -/
theorem targets_nodup (vx vy : Nat) (rows : List Byte) : (targets vx vy rows).Nodup := by
  induction rows generalizing vy with
  | nil => exact List.nodup_nil
  | cons row rows ih =>
    refine List.nodup_append'.2 ⟨rowTargets_nodup vx vy row, ih (vy + 1), fun p h1 h2 => ?_⟩
    obtain ⟨c, -, -, rfl⟩ := mem_rowTargets.1 h1
    obtain ⟨r, c', -, -, -, -, e⟩ := mem_targets.1 h2
    have : vy = vy + 1 + r := congrArg Prod.snd e
    omega

theorem onScreen_some {q : Nat × Nat} {p : Pixel} : onScreen q = some p ↔ q = (p.1.val, p.2.val) := by
  obtain ⟨a, b⟩ := q
  obtain ⟨x, y⟩ := p
  unfold onScreen
  split
  · simp [Prod.ext_iff, Fin.ext_iff]
  · rename_i h
    simp only [reduceCtorEq, Prod.mk.injEq, false_iff]
    rintro ⟨rfl, rfl⟩
    exact h ⟨x.isLt, y.isLt⟩

theorem onScreen_isSome {q : Nat × Nat} : (onScreen q).isSome = true ↔ q.1 < 64 ∧ q.2 < 32 := by
  unfold onScreen; split <;> simp [*]

/-- The fault is called for exactly under `error`, when some target is off the screen (46_display.md R184). -/
theorem edge_none {policy : DrawEdge} {ts : List (Nat × Nat)} :
    edge policy ts = none ↔ policy = .error ∧ ∃ q ∈ ts, 63 < q.1 ∨ 31 < q.2 := by
  cases policy with
  | clip => simp [edge]
  | wrap => simp [edge]
  | error =>
    have h : (ts.all fun p => (onScreen p).isSome) = true ↔ ¬ ∃ q ∈ ts, 63 < q.1 ∨ 31 < q.2 := by
      rw [List.all_eq_true]
      constructor
      · rintro h ⟨q, hq, ho⟩
        have := onScreen_isSome.1 (h q hq)
        omega
      · intro h q hq
        rw [onScreen_isSome]
        by_contra ho
        exact h ⟨q, hq, by omega⟩
    by_cases hall : (ts.all fun p => (onScreen p).isSome) = true
    · simp only [edge, if_pos hall, reduceCtorEq, false_iff, true_and]
      exact h.1 hall
    · simp only [edge, if_neg hall, true_and, true_iff]
      exact Classical.byContradiction fun hn => hall (h.2 hn)

theorem edge_error_some {ts : List (Nat × Nat)} {ps : List Pixel} (h : edge .error ts = some ps) :
    ps = ts.filterMap onScreen := by
  unfold edge at h
  split at h <;> simp_all

theorem wrapPixel_eq {q : Nat × Nat} {p : Pixel} : wrapPixel q = p ↔ (q.1 % 64, q.2 % 32) = (p.1.val, p.2.val) := by
  simp [wrapPixel, Prod.ext_iff, Fin.ext_iff]

/-- The cells drawn over are those on which a target lands. -/
theorem mem_edge {policy : DrawEdge} {ts : List (Nat × Nat)} {ps : List Pixel} (h : edge policy ts = some ps) {p : Pixel} :
    p ∈ ps ↔ ∃ q ∈ ts, landing policy q.1 q.2 = (p.1.val, p.2.val) := by
  cases policy with
  | error =>
    rw [edge_error_some h]
    simp [List.mem_filterMap, onScreen_some, landing]
  | clip =>
    obtain rfl : ts.filterMap onScreen = ps := by simpa [edge] using h
    simp [List.mem_filterMap, onScreen_some, landing]
  | wrap =>
    obtain rfl : ts.map wrapPixel = ps := by simpa [edge] using h
    simp only [List.mem_map, wrapPixel_eq, landing]

theorem filterMap_onScreen_nodup {ts : List (Nat × Nat)} (h : ts.Nodup) : (ts.filterMap onScreen).Nodup := by
  refine List.Nodup.filterMap (fun a b p ha hb => ?_) h
  rw [Option.mem_def, onScreen_some] at ha hb
  rw [ha, hb]

/-- The cells drawn over are distinct, since a sprite is narrower and lower than the screen (R184). -/
theorem edge_nodup {policy : DrawEdge} {vx vy : Nat} {rows : List Byte} {ps : List Pixel} (hr : rows.length ≤ 32)
    (h : edge policy (targets vx vy rows) = some ps) : ps.Nodup := by
  cases policy with
  | error => rw [edge_error_some h]; exact filterMap_onScreen_nodup (targets_nodup vx vy rows)
  | clip =>
    obtain rfl : (targets vx vy rows).filterMap onScreen = ps := by simpa [edge] using h
    exact filterMap_onScreen_nodup (targets_nodup vx vy rows)
  | wrap =>
    obtain rfl : (targets vx vy rows).map wrapPixel = ps := by simpa [edge] using h
    refine List.Nodup.map_on (fun a ha b hb e => ?_) (targets_nodup vx vy rows)
    obtain ⟨r, c, row, hrow, hc, -, rfl⟩ := mem_targets.1 ha
    obtain ⟨r', c', row', hrow', hc', -, rfl⟩ := mem_targets.1 hb
    have h1 := (List.getElem?_eq_some_iff.1 hrow).1
    have h2 := (List.getElem?_eq_some_iff.1 hrow').1
    have e' := wrapPixel_eq.1 e
    simp only [wrapPixel, Prod.mk.injEq] at e'
    have : c = c' := by omega
    have : r = r' := by omega
    simp [*]

/-! ### A sprite in a state -/

/-- The targets of the sprite at `I`, by the bits of memory. -/
theorem mem_targets_sprite {s : State} {vx vy n : Nat} {p : Nat × Nat} :
    p ∈ targets vx vy (s.spriteRows n) ↔ ∃ r c, r < n ∧ c < 8 ∧ s.spriteBit r c = true ∧ p = (vx + c, vy + r) := by
  rw [mem_targets]
  refine exists_congr fun r => exists_congr fun c => ?_
  simp only [State.spriteRows, Memory.readBytes_get, State.spriteBit]
  constructor
  · rintro ⟨row, hr, hc, hb, e⟩
    split at hr
    · obtain rfl := Option.some.inj hr
      exact ⟨‹_›, hc, hb, e⟩
    · contradiction
  · rintro ⟨hr, hc, hb, e⟩
    exact ⟨_, if_pos hr, hc, hb, e⟩

theorem spriteLeavesScreen_iff {s : State} {vx vy n : Nat} :
    s.spriteLeavesScreen vx vy n = true ↔ ∃ q ∈ targets vx vy (s.spriteRows n), 63 < q.1 ∨ 31 < q.2 := by
  simp only [State.spriteLeavesScreen, List.any_eq_true, List.mem_range, Bool.and_eq_true, Bool.or_eq_true,
    decide_eq_true_eq, mem_targets_sprite]
  constructor
  · rintro ⟨r, hr, c, hc, hb, ho⟩
    exact ⟨_, ⟨r, c, hr, hc, hb, rfl⟩, ho⟩
  · rintro ⟨_, ⟨r, c, hr, hc, hb, rfl⟩, ho⟩
    exact ⟨r, hr, c, hc, hb, ho⟩

/-- What the drawing of a sprite does when it raises nothing: the cells drawn over, distinct, are those the sprite covers. -/
theorem drawAt_ok {s : State} {vx vy : Byte} {n : Nat} (hn : n ≤ 15) (hr : n = 0 ∨ s.index + n ≤ 4096)
    (he : ¬ (s.drawEdge = .error ∧ s.spriteLeavesScreen vx.toNat vy.toNat n = true)) :
    ∃ ps : List Pixel, ps.Nodup ∧ (∀ p, p ∈ ps ↔ s.spriteCovers vx.toNat vy.toNat n p) ∧
      edge s.drawEdge (targets vx.toNat vy.toNat (s.spriteRows n)) = some ps ∧
      s.drawAt vx vy n =
        .ok ((State.setFlag { s with fb := (composite s.fb ps).1 } (composite s.fb ps).2).advance) := by
  cases h : edge s.drawEdge (targets vx.toNat vy.toNat (s.spriteRows n)) with
  | none =>
    obtain ⟨h1, h2⟩ := edge_none.1 h
    exact absurd ⟨h1, spriteLeavesScreen_iff.2 h2⟩ he
  | some ps =>
    refine ⟨ps, edge_nodup ?_ h, fun p => ?_, rfl, by simp [State.drawAt, rangeCause_none.2 hr, h]⟩
    · rw [State.spriteRows, Memory.readBytes_length]; omega
    · rw [mem_edge h]
      constructor
      · rintro ⟨_, hq, hl⟩
        obtain ⟨r, c, h1, h2, h3, rfl⟩ := mem_targets_sprite.1 hq
        exact ⟨r, c, h1, h2, h3, hl⟩
      · rintro ⟨r, c, h1, h2, h3, hl⟩
        exact ⟨_, mem_targets_sprite.2 ⟨r, c, h1, h2, h3, rfl⟩, hl⟩

theorem drawAt_range {s : State} {vx vy : Byte} {n : Nat} (h0 : n ≠ 0) (h : 4096 < s.index + n) :
    s.drawAt vx vy n = .error (.addressOutOfRange .read (max s.index 4096)) := by
  simp [State.drawAt, rangeCause_some.2 ⟨h0, h, rfl⟩]

theorem drawAt_edge {s : State} {vx vy : Byte} {n : Nat} (hr : n = 0 ∨ s.index + n ≤ 4096) (he : s.drawEdge = .error)
    (hl : s.spriteLeavesScreen vx.toNat vy.toNat n = true) : s.drawAt vx vy n = .error (.drawOutOfBounds vx vy) := by
  have := edge_none.2 ⟨he, spriteLeavesScreen_iff.1 hl⟩
  simp [State.drawAt, rangeCause_none.2 hr, this]

end Sys2Proof.Machine
end

