-- ==== Sys2Proof/Tests/Slice0.lean ====
section
/-! SUPPORT. Tests. The expected results are those of spec/95_test_vectors.md (the row is named beside each test) and of the
encodings of spec/30_encoding.md; after them, for every statement that has hypotheses, a witness that meets them. -/

namespace Sys2Proof.Tests

open Sys2Proof Sys2Proof.Machine

/-! ### Helpers -/

/-- The reset state with some registers set and an instruction word at 0x200. -/
def withRegs (w : Word) (regs : List (Reg × Byte)) : State :=
  (regs.foldl (fun s p => s.setReg p.1 p.2) State.reset).placeWord w

/-- The state with bytes in memory. -/
def poke (s : State) (a : Nat) (bs : List Byte) : State := s.storeBytes a bs

/-- The state with some keys pressed. -/
def press (s : State) (ks : List Nat) : State := { s with keys := Vector.ofFn fun k => ks.contains k.val }

/-- The framebuffer with exactly these cells set. -/
def cells (ps : List (Nat × Nat)) : Framebuffer := ps.foldl (fun fb p => fb.toggle (wrapPixel p)) Framebuffer.clear

/-- A call stack that starts with these entries, and its depth. -/
def saved (s : State) (ws : List Word) : State :=
  { s with stack := Vector.ofFn fun k => ws.getD k.val 0, sp := ⟨min ws.length 16, by omega⟩ }

/-- A call stack of a given depth, full of one value. -/
def depth (s : State) (n : Fin 17) (w : Word) : State := { s with stack := Vector.replicate 16 w, sp := n }

/-- The next state exists and passes the test. -/
def after (s : State) (p : State → Bool) : Bool :=
  match step s with
  | .next t => p t
  | .fault _ => false
  | .refused _ => false

/-- The record the spec's rows write out. -/
def record (cause : BitVec 3) (word pc : Word) (kind : BitVec 2) (info : Word) : Diag :=
  { valid := true, cause := cause, word := word, pc := pc, kind := kind, info := info }

/-- After a step: stopped at `pc` with this record, registers, framebuffer and memory as before. -/
def stopsWith (s : State) (d : Diag) : Bool :=
  after s fun t => t.run == .stopped && t.diag == d && t.pc == s.pc && t.v == s.v && t.i == s.i && t.fb == s.fb && t.mem == s.mem &&
    t.sp == s.sp && t.stack == s.stack

/-! ### Well-formedness: each check refuses an ill-formed term -/

theorem test_wf_legacy_is_not_clear_screen : (Instr.callLegacy 0x0E0).wellFormed = false := by decide
theorem test_wf_legacy_is_not_return : (Instr.callLegacy 0x0EE).wellFormed = false := by decide
theorem test_wf_legacy : (Instr.callLegacy 0x1E0).wellFormed = true := by decide

/-! ### Decoding: one word written out from the encoding for every constructor (R75, and section 2.0 of the test vectors) -/

theorem test_decode_class0 :
    decodeWord 0b0000000011100000#16 = .ok .clearScreen ∧ decodeWord 0b0000000011101110#16 = .ok .ret ∧
    decodeWord 0x0000 = .ok (.callLegacy 0x000) ∧ decodeWord 0x00E1 = .ok (.callLegacy 0x0E1) ∧
    decodeWord 0x01E0 = .ok (.callLegacy 0x1E0) ∧ decodeWord 0x0FEE = .ok (.callLegacy 0xFEE) ∧
    decodeWord 0x0FFF = .ok (.callLegacy 0xFFF) := by decide

theorem test_decode_flow :
    decodeWord 0b0001101010111100#16 = .ok (.jump 0xABC) ∧ decodeWord 0b0010111111111111#16 = .ok (.call 0xFFF) ∧
    decodeWord 0b1011010111111111#16 = .ok (.jumpWithOffset 0x5FF) := by decide

theorem test_decode_skips :
    decodeWord 0b0011101001111111#16 = .ok (.skipIfEqualImmediate 10 0x7F) ∧
    decodeWord 0b0100111100000000#16 = .ok (.skipIfNotEqualImmediate 15 0) ∧
    decodeWord 0b0101000100100000#16 = .ok (.skipIfRegistersEqual 1 2) ∧ decodeWord 0x512F = .ok (.skipIfRegistersEqual 1 2) ∧
    decodeWord 0b1001101010111111#16 = .ok (.skipIfRegistersNotEqual 10 11) ∧
    decodeWord 0b1110000010011110#16 = .ok (.skipIfKeyPressed 0) ∧
    decodeWord 0b1110000010100001#16 = .ok (.skipIfKeyNotPressed 0) := by decide

theorem test_decode_immediates :
    decodeWord 0b0110111110101011#16 = .ok (.setImmediate 15 0xAB) ∧
    decodeWord 0b0111101010000000#16 = .ok (.addImmediate 10 0x80) ∧
    decodeWord 0b1100000011111111#16 = .ok (.randomAnd 0 0xFF) := by decide

theorem test_decode_class8 :
    decodeWord 0b1000101010110000#16 = .ok (.setRegister 10 11) ∧ decodeWord 0b1000101010110001#16 = .ok (.orRegisters 10 11) ∧
    decodeWord 0b1000101010110010#16 = .ok (.andRegisters 10 11) ∧ decodeWord 0b1000101010110011#16 = .ok (.xorRegisters 10 11) ∧
    decodeWord 0b1000101010110100#16 = .ok (.addRegisters 10 11) ∧ decodeWord 0b1000101010110101#16 = .ok (.subRegisters 10 11) ∧
    decodeWord 0b1000101010110110#16 = .ok (.shiftRight 10) ∧ decodeWord 0x8A06 = .ok (.shiftRight 10) ∧
    decodeWord 0b1000101010110111#16 = .ok (.subRegistersReversed 10 11) ∧
    decodeWord 0b1000101010111110#16 = .ok (.shiftLeft 10) ∧ decodeWord 0x8A0E = .ok (.shiftLeft 10) := by decide

theorem test_decode_index_and_display :
    decodeWord 0b1010000100100011#16 = .ok (.setIndex 0x123) ∧ decodeWord 0b1101000000010101#16 = .ok (.drawSprite 0 1 5) ∧
    decodeWord 0xD120 = .ok (.drawSprite 1 2 0) := by decide

theorem test_decode_class15 :
    decodeWord 0b1111000000000111#16 = .ok (.readDelayTimer 0) ∧ decodeWord 0b1111000000001010#16 = .ok (.waitForKey 0) ∧
    decodeWord 0b1111000000010101#16 = .ok (.setDelayTimer 0) ∧ decodeWord 0b1111000000011000#16 = .ok (.setSoundTimer 0) ∧
    decodeWord 0b1111000000011110#16 = .ok (.addToIndex 0) ∧ decodeWord 0b1111000000101001#16 = .ok (.setIndexToSpriteChar 0) ∧
    decodeWord 0b1111000000110011#16 = .ok (.storeBcd 0) ∧ decodeWord 0b1111000001010101#16 = .ok (.registerDump 0) ∧
    decodeWord 0b1111111101100101#16 = .ok (.registerLoad 15) := by decide

theorem test_decode_unsupported :
    decodeWord 0x8AB8 = .error (.class8 0x8AB8) ∧ decodeWord 0x8ABD = .error (.class8 0x8ABD) ∧
    decodeWord 0x8ABF = .error (.class8 0x8ABF) ∧ decodeWord 0xE09F = .error (.class14 0xE09F) ∧
    decodeWord 0xE0A0 = .error (.class14 0xE0A0) ∧ decodeWord 0xF000 = .error (.class15 0xF000) ∧
    decodeWord 0xF01F = .error (.class15 0xF01F) ∧ decodeWord 0xF0FF = .error (.class15 0xF0FF) := by decide

/-- R52: the byte at the lower address is the high one; what follows is left. -/
theorem test_decode_bytes :
    decode [0x61, 0x03, 0x80] = .ok (.setImmediate 1 3, [0x80]) ∧ decode [0x61] = .error .tooShort := by decide

theorem test_host_decode : decodeTableWord 16 0x8014 = some (.addRegisters 0 1) ∧ decodeTableWord 16 0x8128 = none := by decide

theorem test_host_fetch_word : after (State.reset.withFetchWord 16 0x6005) (fun t => t.reg 0 == 5 && t.pc == 0x202) = true := by decide

/-! ### Control transfer -/

/-- F2. -/
theorem test_return : after { saved ({ State.reset with pc := 0x300 }) [0x200, 0x3FE] with mem := [(0x301, 0xEE)] } (fun t =>
    t.pc == 0x400 && t.sp == 1 && t.stack[0] == 0x200) = true := by decide
/-- F3. -/
theorem test_return_underflow : stopsWith (withRegs 0x00EE []) (record 3 0x00EE 0x200 0 0) = true := by decide
/-- F5. -/
theorem test_call_legacy : after (withRegs 0x0123 []) (fun t => t.pc == 0x202 && t.run == .running) = true := by decide
/-- F10. -/
theorem test_jump_odd : after (withRegs 0x1201 []) (fun t => t.pc == 0x201) = true := by decide
/-- F13. -/
theorem test_call : after (depth (withRegs 0x2300 []) 15 7) (fun t => t.pc == 0x300 && t.sp == 16 && t.stack[15] == 0x200) = true := by
  decide
/-- F14. -/
theorem test_call_overflow : stopsWith (depth (withRegs 0x2300 []) 16 7) (record 2 0x2300 0x200 0 0) = true := by decide
/-- F17. -/
theorem test_jump_with_offset : after (withRegs 0xB300 [(3, 0x55)]) (fun t => t.pc == 0x300) = true := by decide
/-- F18. -/
theorem test_jump_with_offset_top : after (withRegs 0xBFFF [(0, 0xFF)]) (fun t => t.pc == 0x10FE) = true := by decide

/-! ### The fetch at the top of memory -/

/-- F20. -/
theorem test_fetch_odd : after { State.reset with pc := 0xFFD, mem := [(0xFFD, 0x12), (0xFFE, 0x34)] } (fun t => t.pc == 0x234) = true := by
  decide
/-- F21. -/
theorem test_fetch_last : stopsWith { State.reset with pc := 0xFFF } (record 4 0 0xFFF 0 0x1000) = true := by decide
/-- F23. -/
theorem test_fetch_above : stopsWith { State.reset with pc := 0x10FE } (record 4 0 0x10FE 0 0x10FE) = true := by decide
/-- A50. -/
theorem test_unsupported : stopsWith (withRegs 0x8128 []) (record 1 0x8128 0x200 0 0) = true := by decide

/-! ### Skips -/

/-- K1. -/
theorem test_skip_equal_immediate : after (withRegs 0x3005 [(0, 5)]) (fun t => t.pc == 0x204) = true := by decide
/-- K2. -/
theorem test_skip_equal_immediate_not : after (withRegs 0x3005 [(0, 6)]) (fun t => t.pc == 0x202) = true := by decide
/-- K5. -/
theorem test_skip_not_equal_immediate : after (withRegs 0x4005 [(0, 6)]) (fun t => t.pc == 0x204) = true := by decide
/-- K4. -/
theorem test_skip_not_equal_immediate_not : after (withRegs 0x4005 [(0, 5)]) (fun t => t.pc == 0x202) = true := by decide
/-- K8. -/
theorem test_skip_registers_equal : after (withRegs 0x5127 [(1, 7), (2, 7)]) (fun t => t.pc == 0x204) = true := by decide
/-- K7. -/
theorem test_skip_registers_equal_not : after (withRegs 0x5120 [(1, 7), (2, 8)]) (fun t => t.pc == 0x202) = true := by decide
/-- K12. -/
theorem test_skip_registers_not_equal : after (withRegs 0x912F [(1, 7), (2, 8)]) (fun t => t.pc == 0x204) = true := by decide
/-- K13. -/
theorem test_skip_registers_not_equal_not : after (withRegs 0x9330 [(3, 9)]) (fun t => t.pc == 0x202) = true := by decide
/-- K16. -/
theorem test_skip_key_pressed : after (press (withRegs 0xEF9E [(15, 15)]) [15]) (fun t => t.pc == 0x204) = true := by decide
/-- K17. -/
theorem test_skip_key_pressed_fault : stopsWith (press (withRegs 0xE09E [(0, 0x10)]) [0]) (record 5 0xE09E 0x200 0 0x10) = true := by decide
/-- K19. -/
theorem test_skip_key_not_pressed : after (press (withRegs 0xE0A1 [(0, 10)]) [10]) (fun t => t.pc == 0x202) = true := by decide
/-- K20. -/
theorem test_skip_key_not_pressed_taken : after (withRegs 0xE0A1 [(0, 10)]) (fun t => t.pc == 0x204) = true := by decide

/-! ### Registers and arithmetic -/

/-- A2. -/
theorem test_set_immediate : after (withRegs 0x6FAB []) (fun t => t.reg 15 == 0xAB && t.pc == 0x202) = true := by decide
/-- A8. -/
theorem test_add_immediate : after (withRegs 0x7A80 [(10, 0x80), (15, 1)]) (fun t => t.reg 10 == 0 && t.reg 15 == 1) = true := by decide
/-- A7. -/
theorem test_add_immediate_flag : after (withRegs 0x7F02 [(15, 0xFF)]) (fun t => t.reg 15 == 1) = true := by decide
/-- A9. -/
theorem test_set_register : after (withRegs 0x8120 [(2, 0x3C)]) (fun t => t.reg 1 == 0x3C && t.reg 2 == 0x3C) = true := by decide
/-- A11. -/
theorem test_or : after (withRegs 0x8121 [(1, 0xF0), (2, 0x3C), (15, 1)]) (fun t => t.reg 1 == 0xFC && t.reg 15 == 1) = true := by decide
/-- A12. -/
theorem test_and : after (withRegs 0x8122 [(1, 0xF0), (2, 0x3C), (15, 1)]) (fun t => t.reg 1 == 0x30 && t.reg 15 == 1) = true := by decide
/-- A13. -/
theorem test_xor : after (withRegs 0x8123 [(1, 0xF0), (2, 0x3C), (15, 1)]) (fun t => t.reg 1 == 0xCC && t.reg 15 == 1) = true := by decide
/-- A15 (the source's carry example). -/
theorem test_add_carry : after (withRegs 0x8014 [(0, 0xFF), (1, 1)]) (fun t => t.reg 0 == 0 && t.reg 15 == 1) = true := by decide
/-- A20. -/
theorem test_add_into_flag : after (withRegs 0x8F14 [(15, 0xFF), (1, 2)]) (fun t => t.reg 15 == 1) = true := by decide
/-- A25. -/
theorem test_sub_borrow : after (withRegs 0x8125 [(1, 1), (2, 0x10)]) (fun t => t.reg 1 == 0xF1 && t.reg 15 == 0) = true := by decide
/-- A26. -/
theorem test_sub_equal : after (withRegs 0x8125 [(1, 0x33), (2, 0x33)]) (fun t => t.reg 1 == 0 && t.reg 15 == 1) = true := by decide
/-- A33. -/
theorem test_shift_right : after (withRegs 0x8126 [(1, 0xFF)]) (fun t => t.reg 1 == 0x7F && t.reg 2 == 0 && t.reg 15 == 1) = true := by
  decide
/-- A36. -/
theorem test_shift_right_flag : after (withRegs 0x8F06 [(15, 2)]) (fun t => t.reg 15 == 0) = true := by decide
/-- A37. -/
theorem test_sub_reversed : after (withRegs 0x8127 [(1, 1), (2, 0x10)]) (fun t => t.reg 1 == 0x0F && t.reg 15 == 1) = true := by decide
/-- A38. -/
theorem test_sub_reversed_borrow : after (withRegs 0x8127 [(1, 0x10), (2, 1)]) (fun t => t.reg 1 == 0xF1 && t.reg 15 == 0) = true := by
  decide
/-- A41. -/
theorem test_shift_left : after (withRegs 0x810E [(1, 0x81)]) (fun t => t.reg 1 == 2 && t.reg 15 == 1) = true := by decide
/-- A45. -/
theorem test_shift_left_flag : after (withRegs 0x8F0E [(15, 0x7F)]) (fun t => t.reg 15 == 0) = true := by decide
/-- A47: masked with 0 the drawn byte, whatever it is, leaves 0. -/
theorem test_random_and_zero : ∃ t, exec (.randomAnd 0 0) (withRegs 0xC000 [(0, 9)]) = .next t ∧ t.reg 0 = 0 ∧ t.pc = 0x202 :=
  ⟨_, rfl, by simp [State.reg, State.advance, State.setPc, State.setReg], rfl⟩

/-! ### Index and memory -/

/-- M2. -/
theorem test_set_index : after (withRegs 0xAFFF []) (fun t => t.i == 0xFFF && t.pc == 0x202) = true := by decide
/-- M6. -/
theorem test_add_to_index : after { withRegs 0xF01E [(0, 0xFF)] with i := 0xF00 } (fun t => t.i == 0xFFF && t.reg 15 == 0) = true := by decide
/-- M7. -/
theorem test_add_to_index_fault : stopsWith { withRegs 0xF01E [(0, 1)] with i := 0xFFF } (record 4 0xF01E 0x200 3 0x1000) = true := by decide
/-- M11. -/
theorem test_sprite_char : after (withRegs 0xF029 [(0, 0xFF)]) (fun t => t.i == 0x4FB) = true := by decide
/-- M12. -/
theorem test_bcd : after { withRegs 0xF033 [(0, 254)] with i := 0x300 } (fun t =>
    t.mem == [(0x200, 0xF0), (0x201, 0x33), (0x300, 2), (0x301, 5), (0x302, 4)]) = true := by decide
/-- M16. -/
theorem test_bcd_fault : stopsWith { withRegs 0xF033 [(0, 255)] with i := 0xFFE } (record 4 0xF033 0x200 2 0x1000) = true := by decide
/-- M18. -/
theorem test_dump : after { withRegs 0xF255 [(0, 0x11), (1, 0x22), (2, 0x33)] with i := 0x300 } (fun t =>
    t.mem == [(0x200, 0xF2), (0x201, 0x55), (0x300, 0x11), (0x301, 0x22), (0x302, 0x33)] && t.i == 0x300) = true := by decide
/-- M20. -/
theorem test_dump_fault : stopsWith { withRegs 0xF155 [(0, 0x11), (1, 0x22)] with i := 0xFFF } (record 4 0xF155 0x200 2 0x1000) = true := by
  decide
/-- M23. -/
theorem test_load : after (poke { withRegs 0xF165 [(2, 0x77)] with i := 0x300 } 0x300 [0xAA, 0xBB, 0xCC]) (fun t =>
    t.reg 0 == 0xAA && t.reg 1 == 0xBB && t.reg 2 == 0x77 && t.i == 0x300) = true := by decide
/-- M25. -/
theorem test_load_fault : stopsWith (poke { withRegs 0xF165 [] with i := 0xFFF } 0xFFF [0x5A]) (record 4 0xF165 0x200 1 0x1000) = true := by
  decide

/-! ### Timers and keys -/

/-- T2. -/
theorem test_read_delay : after { withRegs 0xFF07 [] with dt := 0xFF } (fun t => t.reg 15 == 0xFF && t.dt == 0xFF) = true := by decide
/-- T3. -/
theorem test_set_delay : after (withRegs 0xF015 [(0, 60)]) (fun t => t.dt == 60 && t.st == 0) = true := by decide
/-- T5. -/
theorem test_set_sound : after (withRegs 0xF118 [(1, 4)]) (fun t => t.st == 4 && t.dt == 0) = true := by decide
/-- T6. -/
theorem test_wait_suspends : after (withRegs 0xF00A []) (fun t =>
    t.run == .awaitingKey && t.pc == 0x200 && t.result == .notYetComplete) = true := by decide
/-- T7. -/
theorem test_wait_completes : after (press (withRegs 0xF00A []) [7]) (fun t => t.reg 0 == 7 && t.pc == 0x202 && t.run == .running) = true := by
  decide
/-- T11. -/
theorem test_poll : after (press { withRegs 0 [] with run := .awaitingKey, waitX := 5 } [12]) (fun t =>
    t.reg 5 == 0x0C && t.pc == 0x202 && t.result == .completed) = true := by decide
/-- T13. -/
theorem test_tick : after { withRegs 0 [] with dt := 0, st := 1, turns := [.tick] } (fun t => t.dt == 0 && t.st == 0) = true := by decide
/-- T15. -/
theorem test_tick_while_waiting : after { withRegs 0 [] with run := .awaitingKey, dt := 3, turns := [.tick] } (fun t => t.dt == 2 && t.run == .awaitingKey) = true := by decide

/-! ### Display -/

/-- G2's sprite, with a framebuffer. -/
def glyph (w : Word) (fb : Framebuffer) : State :=
  poke { withRegs w [(1, 2), (2, 1), (15, 1)] with i := 0x300, fb := fb } 0x300 [0xF0, 0x90]

/-- G10's sprite across the corner, under a policy. -/
def corner (policy : DrawEdge) : State :=
  poke { withRegs 0xD012 [(0, 60), (1, 31)] with i := 0x300, drawEdge := policy } 0x300 [0xFF, 0x80]

/-- G1. -/
theorem test_clear_screen : after { withRegs 0x00E0 [(15, 1)] with fb := cells [(0, 0), (5, 5), (63, 31)] } (fun t =>
    t.fb == cells [] && t.reg 15 == 1 && t.pc == 0x202) = true := by decide
/-- G20: clipped at the right edge, with a collision. -/
theorem test_draw_clip : after (poke { withRegs 0xD011 [(0, 60), (1, 5)] with i := 0x300, drawEdge := .clip, fb := cells [(0, 5), (61, 5)] }
    0x300 [0xFF]) (fun t => t.fb == cells [(0, 5), (60, 5), (62, 5), (63, 5)] && t.reg 15 == 1 && t.pc == 0x202) = true := by decide
/-- G12. -/
theorem test_draw_wrap : after (corner .wrap) (fun t => t.fb == cells [(60, 31), (61, 31), (62, 31), (63, 31), (0, 31), (1, 31),
    (2, 31), (3, 31), (60, 0)] && t.reg 15 == 0) = true := by decide
/-- R36: the flattened number of cell (5, 2) is 64 * 2 + 5. -/
theorem test_flattened_cell : (cells [(5, 2)]).cell 133 = true ∧ cellNumber (5, 2) = 133 := by decide

/-! ### Witnesses of the statements' hypotheses -/

theorem witness_round_trip : (Instr.callLegacy 0xFFF).wellFormed = true ∧ (Instr.drawSprite 15 15 15).wellFormed = true ∧
    (Instr.registerLoad 15).wellFormed = true := by decide

theorem witness_decoded_word : decodeWord 0x5127 = .ok (.skipIfRegistersEqual 1 2) ∧ decodeWord 0x8AB6 = .ok (.shiftRight 10) := by decide

theorem witness_memories_read_alike : ∃ m m' : Memory, m = (Memory.write [] 3 7).write 1 9 ∧ m' = ((Memory.write [] 1 9).write 3 7).write 2 0 ∧
    m.wf = true ∧ m'.wf = true ∧ ∀ a, m.read a = m'.read a := by
  refine ⟨_, _, rfl, rfl, by decide, by decide, fun a => ?_⟩
  have : (Memory.write [] 3 7).write 1 9 = ((Memory.write [] 1 9).write 3 7).write 2 0 := by decide
  rw [this]

theorem witness_image_lengths : ([] : List Byte).length ≤ 3584 ∧ (List.replicate 3584 (1 : Byte)).length ≤ 3584 ∧
    3584 < (List.replicate 3585 (1 : Byte)).length := by
  rw [List.length_replicate, List.length_replicate]
  decide

/-- A session that starts with a one-instruction image, a key pressed, the policy wrap and a schedule. -/
def session : State :=
  { press (State.reset.storeBytes 0x200 [0x60, 0x05]) [7] with drawEdge := .wrap, turns := [.tick, .core], beyond := .free 0 }

theorem witness_launch : session.launch := ⟨[0x60, 0x05], by decide, _, rfl, by decide⟩

/-- A running machine in a subroutine, about to return. -/
def inSubroutine : State := { saved { State.reset with pc := 0x300 } [0xFFE] with mem := [(0x301, 0xEE)] }

theorem witness_inv_running : inSubroutine.Inv ∧ ∃ t, step inSubroutine = .next t := by
  refine ⟨⟨by decide, by decide, by decide, by decide, fun h => ?_, fun h => ?_, fun _ => rfl⟩, _, rfl⟩
  · exact absurd h (by decide)
  · exact absurd h (by decide)

/-- A machine that awaits a key at its own wait-for-key. -/
def waiting : State := { withRegs 0xF50A [(15, 15)] with run := .awaitingKey, waitX := 5 }

theorem waiting_fetches : waiting.fetches 0xF50A := ⟨by decide, by decide⟩

theorem witness_inv_waiting : waiting.Inv ∧ ∃ t, step waiting = .next t := by
  refine ⟨⟨by decide, by decide, by decide, by decide, fun _ => ⟨_, waiting_fetches, by decide⟩, fun h => ?_, fun _ => rfl⟩, _, rfl⟩
  exact absurd h (by decide)

/-- A machine stopped at the highest `pc` any run reaches. -/
def stoppedHigh : State := { State.reset with pc := 0x10FE, run := .stopped, diag := record 4 0 0x10FE 0 0x10FE }

theorem witness_inv_stopped : stoppedHigh.Inv ∧ ∃ t, step stoppedHigh = .next t := by
  refine ⟨⟨by decide, by decide, by decide, by decide, fun h => ?_, fun _ => by decide, fun h => absurd rfl h⟩, _, rfl⟩
  exact absurd h (by decide)

theorem witness_memory_canonical : ∃ t, (withRegs 0xF133 [(1, 123)]).mem.wf = true ∧ step (withRegs 0xF133 [(1, 123)]) = .next t :=
  ⟨_, by decide, rfl⟩

theorem witness_runs_next : ∃ u, (withRegs 0x8014 []).runsNext (.addRegisters 0 1) u :=
  ⟨_, rfl, rfl, 0x8014, ⟨by decide, by decide⟩, by decide⟩

/-- At the last address a fetch succeeds from. -/
theorem witness_runs_next_top : ∃ u, State.runsNext { State.reset with pc := 0xFFE, mem := [(0xFFE, 0x12)] } (.jump 0x200) u :=
  ⟨_, rfl, rfl, 0x1200, ⟨by decide, by decide⟩, by decide⟩

/-- The same with the turn listed, before free turns. -/
theorem witness_scheduled_core : ∃ u, State.runsNext { withRegs 0x1208 [] with turns := [.core, .tick], beyond := .free 3 } (.jump 0x208) u :=
  ⟨_, rfl, rfl, 0x1208, ⟨by decide, by decide⟩, by decide⟩

theorem witness_core_alone : (withRegs 0x8014 []).run = .running ∧ (withRegs 0x8014 []).coreAlone ∧ (withRegs 0x8014 []).fetches 0x8014 ∧
    decodeWord 0x8014 = .ok (.addRegisters 0 1) :=
  ⟨rfl, ⟨rfl, rfl⟩, ⟨by decide, by decide⟩, by decide⟩

/-- A machine whose timers are ticked before every cycle, for ever. -/
def ticking : State := { withRegs 0x1200 [] with dt := 9, beyond := .always [.tick] }

theorem witness_endless_ticks : ticking.turns = [] ∧ ticking.beyond = .always [.tick] := ⟨rfl, rfl⟩

/-- R114: tick, cycle, tick, cycle. -/
theorem test_endless_ticks : ticking.upcoming 4 = [.tick, .core, .tick, .core] := by decide

theorem witness_fetch_out_of_range : ∀ pc ∈ [0xFFF#16, 0x1000#16, 0x10FE#16, 0xFFFF#16],
    (State.reset.setPc pc).run = .running ∧ (∃ u, (State.reset.setPc pc).nextTurn = (.core, u)) ∧ 4095 ≤ (State.reset.setPc pc).pc.toNat := by
  intro pc h
  simp only [List.mem_cons, List.not_mem_nil, or_false] at h
  rcases h with rfl | rfl | rfl | rfl <;> exact ⟨rfl, ⟨_, rfl⟩, by decide⟩

/-- The word decodes to no instruction. -/
def rejected (w : Word) : Bool :=
  match decodeWord w with
  | .ok _ => false
  | .error _ => true

theorem rejected_spec {w : Word} (h : rejected w = true) (i : Instr) : decodeWord w ≠ .ok i := by
  intro e
  simp [rejected, e] at h

theorem witness_unsupported : ∀ w ∈ [0x8128#16, 0xE09F#16, 0xF000#16, 0xF0FF#16],
    (withRegs w []).run = .running ∧ (∃ u, (withRegs w []).nextTurn = (.core, u)) ∧ (withRegs w []).fetches w ∧ ∀ i, decodeWord w ≠ .ok i := by
  intro w hw
  simp only [List.mem_cons, List.not_mem_nil, or_false] at hw
  rcases hw with rfl | rfl | rfl | rfl <;>
    exact ⟨rfl, ⟨_, rfl⟩, ⟨by decide, by decide⟩, rejected_spec (by decide)⟩

theorem witness_stopped : stoppedHigh.run = .stopped ∧ stoppedHigh.coreAlone := ⟨rfl, rfl, rfl⟩

theorem witness_waiting_no_key : ∃ u, waiting.run = .awaitingKey ∧ waiting.nextTurn = (.core, u) ∧ waiting.noKey :=
  ⟨_, rfl, rfl, by unfold State.noKey; decide⟩

theorem witness_waiting_key : ∃ u, (press waiting [0]).run = .awaitingKey ∧ (press waiting [0]).nextTurn = (.core, u) ∧
    ¬ (press waiting [0]).noKey :=
  ⟨_, rfl, rfl, fun h => absurd (h 0) (by decide)⟩

theorem witness_wait_ends : ∃ t, (press waiting [15]).run = .awaitingKey ∧ step (press waiting [15]) = .next t ∧ t.run ≠ .awaitingKey :=
  ⟨_, rfl, rfl, by decide⟩

theorem witness_tick_turn : (∃ u, State.nextTurn { waiting with turns := [.tick, .core] } = (.tick, u)) ∧ ∃ u, ticking.nextTurn = (.tick, u) :=
  ⟨⟨_, rfl⟩, _, rfl⟩

theorem witness_keys_turn : (∃ u, State.nextTurn { waiting with turns := [.keys (Vector.replicate 16 true)] } =
    (.keys (Vector.replicate 16 true), u)) ∧
    ∃ u, State.nextTurn { waiting with beyond := .always [.keys (Vector.replicate 16 true)] } = (.keys (Vector.replicate 16 true), u) :=
  ⟨⟨_, rfl⟩, _, rfl⟩

theorem witness_return : (saved State.reset [0x200]).sp.val = 0 + 1 ∧ (saved State.reset [0x200]).stack[0]? = some 0x200 ∧
    (depth State.reset 16 0x3FE).sp.val = 15 + 1 ∧ (depth State.reset 16 0x3FE).stack[15]? = some 0x3FE ∧ State.reset.sp.val = 0 := by
  decide

theorem witness_call : State.reset.sp.val < 16 ∧ (depth State.reset 15 0x200).sp.val < 16 ∧ (depth State.reset 16 0x200).sp.val = 16 := by
  decide

theorem witness_jump_to_self : (withRegs 0x1200 []).pc = (0x200#12).zeroExtend 16 := by decide

theorem witness_key_skip : ((withRegs 0 [(3, 15)]).reg 3).toNat = (15 : Reg).val ∧ ((withRegs 0 [(3, 0)]).reg 3).toNat = (0 : Reg).val ∧
    15 < ((withRegs 0 [(3, 16)]).reg 3).toNat := by decide

theorem witness_destination_is_not_flag : (14 : Reg) ≠ 15 ∧ (0 : Reg) ≠ 15 := by decide

theorem witness_flag : ∃ t, exec (.addRegisters 15 1) (withRegs 0 [(15, 0xFF), (1, 2)]) = .next t := ⟨_, rfl⟩

theorem witness_flag_draw : ∃ t, (Instr.drawSprite 1 2 2).cause (glyph 0xD122 (cells [])) = none ∧
    exec (.drawSprite 1 2 2) (glyph 0xD122 (cells [])) = .next t :=
  ⟨_, by decide, rfl⟩

/-- Both clauses of add-to-index meet here: the sums 4095 and 4096. -/
theorem witness_add_to_index : ({ withRegs 0 [(0, 0xFF)] with i := 0xF00 } : State).i.toNat + 0xFF ≤ 4095 ∧
    4095 < ({ withRegs 0 [(0, 0xFF)] with i := 0xF01 } : State).i.toNat + 0xFF := by decide

/-- A state with `I` at a given address. -/
def withIndex (a : Word) : State := { withRegs 0xF133 [(1, 123)] with i := a }

theorem witness_bcd : (withIndex 0xFFD).mem.wf = true ∧ (withIndex 0xFFD).index + 2 ≤ 4095 ∧
    ((withIndex 0xFFE).index ≤ 4095 ∧ 4095 < (withIndex 0xFFE).index + 2) ∧
    (withIndex 0xFFF).index ≤ 4095 ∧ 4095 < (withIndex 0xFFF).index + 2 := by decide

theorem witness_ranges : (withIndex 0xFF0).mem.wf = true ∧ (withIndex 0xFF0).index + (15 : Reg).val ≤ 4095 ∧
    (withIndex 0xFFF).index + (0 : Reg).val ≤ 4095 ∧
    ((withIndex 0xFF1).index ≤ 4095 ∧ 4095 < (withIndex 0xFF1).index + (15 : Reg).val) ∧
    (withIndex 0xFFF).index ≤ 4095 ∧ 4095 < (withIndex 0xFFF).index + (1 : Reg).val := by decide

/-- Program P5 at its register-dump. -/
theorem witness_dumped_bytes : (withIndex 0x202).mem.wf = true ∧ 1 ≤ (1 : Reg).val ∧ (withIndex 0x202).index = (withIndex 0x202).pc.toNat + 2 ∧
    (withIndex 0x202).index + (1 : Reg).val ≤ 4095 := by decide

theorem witness_wait : ¬ (press (withRegs 0xF00A []) [3, 9]).noKey ∧ (withRegs 0xF00A []).noKey :=
  ⟨fun h => absurd (h 3) (by decide), by unfold State.noKey; decide⟩

/-- The later cycle of a wait, first with no key and then with the last key pressed. -/
theorem witness_wait_later : ∃ t, exec (.waitForKey 5) (withRegs 0xF50A []) = .next t ∧ State.noKey { t with turns := [], beyond := .always [] } ∧
    ¬ State.noKey { t with keys := (press t [15]).keys, turns := [], beyond := .always [] } :=
  ⟨{ withRegs 0xF50A [] with waitX := 5, run := .awaitingKey }, rfl, by unfold State.noKey; decide, fun h => absurd (h 15) (by decide)⟩

/-- A draw that raises nothing, with a covered cell that is set, a covered cell that is not, and a cell that is not covered. -/
theorem witness_draw : (Instr.drawSprite 1 2 2).cause (glyph 0xD122 (cells [(5, 2)])) = none ∧
    (glyph 0xD122 (cells [(5, 2)])).spriteCovers 2 1 2 (5, 2) ∧ (cells [(5, 2)]).pixel (5, 2) = true ∧
    (glyph 0xD122 (cells [(5, 2)])).spriteCovers 2 1 2 (2, 1) ∧ (cells [(5, 2)]).pixel (2, 1) = false :=
  ⟨by decide, ⟨1, 3, by decide, by decide, by decide, by decide⟩, by decide, ⟨0, 0, by decide, by decide, by decide, by decide⟩, by decide⟩

theorem witness_draw_uncovered : ¬ (glyph 0xD122 (cells [])).spriteCovers 2 1 2 (0, 0) := by
  rintro ⟨r, c, -, -, -, h⟩
  have h1 : 2 + c = 0 := congrArg Prod.fst h
  omega

theorem witness_draw_no_collision : ∀ p, (glyph 0xD122 (cells [])).spriteCovers 2 1 2 p → (glyph 0xD122 (cells [])).fb.pixel p = false := by
  intro p _
  show (cells []).pixel p = false
  simp [cells, Framebuffer.clear, Framebuffer.pixel]

/-- Under wrap a sprite off the screen raises nothing and covers the wrapped cell; under clip as well, and covers only what is on. -/
theorem witness_draw_policies : (Instr.drawSprite 0 1 2).cause (corner .wrap) = none ∧ (corner .wrap).spriteCovers 60 31 2 (60, 0) ∧
    (Instr.drawSprite 0 1 2).cause (corner .clip) = none ∧ (corner .clip).spriteCovers 60 31 2 (63, 31) :=
  ⟨by decide, ⟨1, 0, by decide, by decide, by decide, by decide⟩, by decide, ⟨0, 3, by decide, by decide, by decide, by decide⟩⟩

theorem witness_draw_range_fault : (withIndex 0xFF2).index ≤ 4095 ∧ 0 < (15 : Fin 16).val ∧ 4095 < (withIndex 0xFF2).index + (15 : Fin 16).val - 1 ∧
    (withIndex 0xFF1).index + (15 : Fin 16).val ≤ 4096 := by decide

theorem witness_draw_edge_fault : (corner .error).index ≤ 4095 ∧ (corner .error).index + (2 : Fin 16).val ≤ 4096 ∧
    (corner .error).drawEdge = .error ∧
    (corner .error).spriteLeavesScreen ((corner .error).reg 0).toNat ((corner .error).reg 1).toNat (2 : Fin 16).val = true ∧
    (corner .clip).index + (2 : Fin 16).val ≤ 4096 ∧ (corner .clip).drawEdge ≠ .error ∧ (corner .wrap).drawEdge ≠ .error := by decide

theorem witness_draw_twice : ∃ t, (Instr.drawSprite 1 2 2).cause (glyph 0xD122 (cells [])) = none ∧
    exec (.drawSprite 1 2 2) (glyph 0xD122 (cells [])) = .next t ∧ t.reg 1 = (glyph 0xD122 (cells [])).reg 1 ∧
    t.reg 2 = (glyph 0xD122 (cells [])).reg 2 :=
  ⟨_, by decide, rfl, by decide, by decide⟩

/-- G9: the set bits end at column 63. -/
def edgeOfScreen : State := poke { withRegs 0xD011 [(0, 60)] with i := 0x300 } 0x300 [0xF0]

theorem witness_on_screen :
    edgeOfScreen.spriteLeavesScreen (edgeOfScreen.reg 0).toNat (edgeOfScreen.reg 1).toNat (1 : Fin 16).val = false := by decide

/-- Every cause has a state and an instruction that raise it. -/
theorem witness_causes : Instr.ret.cause State.reset = some .stackUnderflow ∧
    (Instr.call 0x300).cause (depth State.reset 16 0) = some .stackOverflow ∧
    (Instr.skipIfKeyPressed 0).cause (withRegs 0 [(0, 16)]) = some (.keyIndexOutOfRange 16) ∧
    (Instr.addToIndex 1).cause (withIndex 0xFFF) = some (.addressOutOfRange .index 4218) ∧
    (Instr.storeBcd 1).cause (withIndex 0xFFE) = some (.addressOutOfRange .write 4096) ∧
    (Instr.registerDump 15).cause (withIndex 0xFF1) = some (.addressOutOfRange .write 4096) ∧
    (Instr.registerLoad 15).cause (withIndex 0xFF1) = some (.addressOutOfRange .read 4096) ∧
    (Instr.drawSprite 0 1 2).cause (corner .error) = some (.drawOutOfBounds 60 31) := by decide

theorem witness_no_cause : ∃ t, (Instr.registerDump 2).cause (withIndex 0x300) = none ∧ (withIndex 0x300).run = .running ∧
    exec (.registerDump 2) (withIndex 0x300) = .next t ∧ t.run = .running :=
  ⟨_, by decide, by decide, rfl, by decide⟩

theorem witness_fault_latch : ∃ u, (withRegs 0x00EE []).run = .running ∧ (withRegs 0x00EE []).nextTurn = (.core, u) ∧
    (withRegs 0x00EE []).fetches 0x00EE ∧
    decodeWord 0x00EE = .ok .ret ∧ Instr.ret.cause (withRegs 0x00EE []) = some .stackUnderflow :=
  ⟨_, rfl, rfl, ⟨by decide, by decide⟩, by decide, by decide⟩

theorem witness_cycle_waits : ∃ u, (withRegs 0xF00A []).runsNext (.waitForKey 0) u ∧
    (Instr.waitForKey 0).cause (withRegs 0xF00A []) = none :=
  ⟨_, ⟨rfl, rfl, 0xF00A, ⟨by decide, by decide⟩, by decide⟩, rfl⟩

theorem witness_sound_timer : ∃ t, exec (.setSoundTimer 1) (withRegs 0xF118 [(1, 4)]) = .next t := ⟨_, rfl⟩

theorem witness_stale_entry : ∃ t, State.sp (saved State.reset [0x200]) ≤ 1 ∧ exec (.call 0x300) (saved State.reset [0x200]) = .next t :=
  ⟨_, by decide, rfl⟩

end Sys2Proof.Tests
end

section
/-! SUPPORT. What an instruction does when it raises nothing, as one total function of the state, and the two laws that tie it to
`exec`: with a cause an instruction takes that fault, without one it has its effect. -/

namespace Sys2Proof.Machine

/-- The screen and the collision after the sprite of `n` rows at `(vx, vy)` is drawn (46_display.md R183 to R185). -/
def State.drawn (s : State) (vx vy : Byte) (n : Nat) : Framebuffer × Bool :=
  composite s.fb ((edge s.drawEdge (targets vx.toNat vy.toNat (s.spriteRows n))).getD [])

/-- The key a register's value names, reduced modulo 16 (42_skips.md R134: without a cause the value is at most 15). -/
def State.keyNamed (s : State) (b : Byte) : Bool := s.key (Fin.ofNat 16 b.toNat)

/-- The registers with `V[0]` to `V[x]` read from memory (44_index_memory.md R165). Irreducible: a comparison of two states by
`rfl` is not to evaluate the 16 entries. -/
@[irreducible] def State.loadedRegs (s : State) (x : Reg) : Vector Byte 16 :=
  Vector.ofFn fun r => if r ≤ x then s.mem.read (s.index + r.val) else s.reg r

end Sys2Proof.Machine

namespace Sys2Proof

open Machine

/-- What an instruction does when it raises nothing. It has a value where a cause stands too, which no law speaks of. -/
def Instr.effect (i : Instr) (s : State) : State :=
  match i with
  | .clearScreen => State.advance { s with fb := Framebuffer.clear }
  | .ret => State.setPc { s with sp := ⟨s.sp.val - 1, by omega⟩ } (s.stack[s.sp.val - 1] + 2)
  | .callLegacy _ => s.advance
  | .jump nnn => s.setPc (addr16 nnn)
  | .call nnn => State.setPc { s with stack := s.stack.setIfInBounds s.sp.val s.pc, sp := s.sp + 1 } (addr16 nnn)
  | .skipIfEqualImmediate x nn => s.skipWhen (s.reg x == nn)
  | .skipIfNotEqualImmediate x nn => s.skipWhen (s.reg x != nn)
  | .skipIfRegistersEqual x y => s.skipWhen (s.reg x == s.reg y)
  | .setImmediate x nn => (s.setReg x nn).advance
  | .addImmediate x nn => (s.setReg x (s.reg x + nn)).advance
  | .setRegister x y => (s.setReg x (s.reg y)).advance
  | .orRegisters x y => (s.setReg x (s.reg x ||| s.reg y)).advance
  | .andRegisters x y => (s.setReg x (s.reg x &&& s.reg y)).advance
  | .xorRegisters x y => (s.setReg x (s.reg x ^^^ s.reg y)).advance
  | .addRegisters x y => (s.setResultAndFlag x (s.reg x + s.reg y) (carryOut (s.reg x) (s.reg y))).advance
  | .subRegisters x y => (s.setResultAndFlag x (s.reg x - s.reg y) (noBorrow (s.reg x) (s.reg y))).advance
  | .shiftRight x => (s.setResultAndFlag x (s.reg x >>> 1) (shiftedOutLow (s.reg x))).advance
  | .subRegistersReversed x y => (s.setResultAndFlag x (s.reg y - s.reg x) (noBorrow (s.reg y) (s.reg x))).advance
  | .shiftLeft x => (s.setResultAndFlag x (s.reg x <<< 1) (shiftedOutHigh (s.reg x))).advance
  | .skipIfRegistersNotEqual x y => s.skipWhen (s.reg x != s.reg y)
  | .setIndex nnn => (s.setIndex (addr16 nnn)).advance
  | .jumpWithOffset nnn => s.setPc (s.offsetTarget nnn)
  | .randomAnd x nn => { (s.setReg x (Config.randomByte s.draws &&& nn)).advance with draws := s.draws + 1 }
  | .drawSprite x y n =>
    (State.setFlag { s with fb := (s.drawn (s.reg x) (s.reg y) n.val).1 } (s.drawn (s.reg x) (s.reg y) n.val).2).advance
  | .skipIfKeyPressed x => s.skipWhen (s.keyNamed (s.reg x))
  | .skipIfKeyNotPressed x => s.skipWhen (!s.keyNamed (s.reg x))
  | .readDelayTimer x => (s.setReg x s.dt).advance
  | .waitForKey x => (s.takeKey x).getD { s with waitX := x, run := .awaitingKey }
  | .setDelayTimer x => State.advance { s with dt := s.reg x }
  | .setSoundTimer x => State.advance { s with st := s.reg x }
  | .addToIndex x => (s.setIndex (BitVec.ofNat 16 (s.indexSum x))).advance
  | .setIndexToSpriteChar x => (s.setIndex (spriteCharAddress (s.reg x))).advance
  | .storeBcd x => (s.storeBytes s.index (bcdDigits (s.reg x))).advance
  | .registerDump x => (s.storeBytes s.index (s.regBytes x)).advance
  | .registerLoad x => State.advance { s with v := s.loadedRegs x }

end Sys2Proof

namespace Sys2Proof.Machine

/-! ### The table of causes, row by row -/

/-- A row with one condition raises its cause exactly when the condition holds. -/
theorem ite_some_none_eq_some {p : Prop} [Decidable p] {c d : Cause} :
    (if p then some d else none) = some c ↔ p ∧ d = c := by
  rw [Option.ite_none_right_eq_some, Option.some.injEq]

/-- A row with one condition raises nothing exactly when the condition fails. -/
theorem ite_some_none_eq_none {p : Prop} [Decidable p] {d : Cause} : (if p then some d else none) = none ↔ ¬ p := by
  simp

theorem sp_pos_of_ret {s : State} (h : Instr.ret.cause s = none) : 0 < s.sp.val :=
  Nat.pos_of_ne_zero (ite_some_none_eq_none.1 h)

theorem sp_lt_of_call {s : State} {nnn : BitVec 12} (h : (Instr.call nnn).cause s = none) : s.sp.val < 16 := by
  have := ite_some_none_eq_none.1 h
  omega

theorem indexSum_le_of_addToIndex {s : State} {x : Reg} (h : (Instr.addToIndex x).cause s = none) : s.indexSum x ≤ 4095 :=
  Nat.not_lt.1 (ite_some_none_eq_none.1 h)

theorem index_le_of_storeBcd {s : State} {x : Reg} (h : (Instr.storeBcd x).cause s = none) : s.index + 3 ≤ 4096 := by
  have := ite_some_none_eq_none.1 h
  omega

theorem index_le_of_registerDump {s : State} {x : Reg} (h : (Instr.registerDump x).cause s = none) :
    s.index + (x.val + 1) ≤ 4096 := by
  have := ite_some_none_eq_none.1 h
  omega

theorem index_le_of_registerLoad {s : State} {x : Reg} (h : (Instr.registerLoad x).cause s = none) :
    s.index + (x.val + 1) ≤ 4096 := by
  have := ite_some_none_eq_none.1 h
  omega

theorem drawSprite_cause_none {s : State} {x y : Reg} {n : Fin 16} (h : (Instr.drawSprite x y n).cause s = none) :
    (n.val = 0 ∨ s.index + n.val ≤ 4096) ∧
      ¬ (s.drawEdge = .error ∧ s.spriteLeavesScreen (s.reg x).toNat (s.reg y).toNat n.val = true) := by
  simp only [Instr.cause] at h
  split at h
  · contradiction
  · exact ⟨by omega, ite_some_none_eq_none.1 h⟩

/-! ### The operations behind the effect -/

theorem keyAt_eq_keyNamed {s : State} {b : Byte} (h : ¬ 15 < b.toNat) : s.keyAt b = .ok (s.keyNamed b) :=
  keyAt_ok (by simp only [Fin.val_ofNat]; omega)

theorem loadRegs_regsUpTo (s : State) (x : Reg) :
    s.loadRegs s.index (regsUpTo x) = { s with v := s.loadedRegs x } := by
  have hv : (s.loadRegs s.index (regsUpTo x)).v = s.loadedRegs x := by
    ext k hk : 1
    change (s.loadRegs s.index (regsUpTo x)).reg ⟨k, hk⟩ = _
    simp only [reg_loadRegs, State.loadedRegs, Vector.getElem_ofFn, mem_regsUpTo]
  rw [loadRegs_eq, hv]

/-- A call's push, with room for it. -/
theorem push_pc_room {s : State} (h : s.sp.val < 16) :
    s.push s.pc = .ok { s with stack := s.stack.setIfInBounds s.sp.val s.pc, sp := s.sp + 1 } := by
  have hsp : (⟨s.sp.val + 1, by omega⟩ : Fin 17) = s.sp + 1 := Fin.ext (by simp only [Fin.val_add]; omega)
  have hstack : s.stack.set s.sp.val s.pc = s.stack.setIfInBounds s.sp.val s.pc := by
    ext k hk : 1
    simp [Vector.getElem_set, Vector.getElem_setIfInBounds]
  rw [push_room h, hsp, hstack]

theorem drawAt_eq_drawn {s : State} {vx vy : Byte} {n : Nat} (hn : n ≤ 15) (hr : n = 0 ∨ s.index + n ≤ 4096)
    (he : ¬ (s.drawEdge = .error ∧ s.spriteLeavesScreen vx.toNat vy.toNat n = true)) :
    s.drawAt vx vy n = .ok (State.setFlag { s with fb := (s.drawn vx vy n).1 } (s.drawn vx vy n).2).advance := by
  obtain ⟨ps, -, -, hedge, hdraw⟩ := drawAt_ok hn hr he
  rw [hdraw, State.drawn, hedge, Option.getD_some]

/-- The two ends of a wait-for-key in the cycle that fetches it (45_timers_keys.md R173). -/
theorem effect_waitForKey (s : State) (x : Reg) :
    (s.noKey ∧ (Instr.waitForKey x).effect s = { s with waitX := x, run := .awaitingKey }) ∨
    ∃ k : Reg, s.key k = true ∧ (Instr.waitForKey x).effect s =
      { (s.setReg x (BitVec.ofNat 8 k.val)).advance with draws := s.draws + 1 } := by
  by_cases h : s.noKey
  · exact .inl ⟨h, by rw [Instr.effect, takeKey_none x h]; rfl⟩
  · obtain ⟨k, hk, htake⟩ := takeKey_some x h
    exact .inr ⟨k, hk, by rw [Instr.effect, htake]; rfl⟩

/-! ### The two laws of `exec` -/

/-- An instruction with a cause takes that fault (60_exceptions.md R208, R212). -/
theorem exec_of_cause {i : Instr} {s : State} {c : Cause} (h : i.cause s = some c) :
    exec i s = .next (s.raise (encode i) c) := by
  cases i with
  | ret =>
    obtain ⟨h0, rfl⟩ := ite_some_none_eq_some.1 h
    simp only [exec, execReturn, pop_empty h0, orRaise_error]
  | call nnn =>
    obtain ⟨h0, rfl⟩ := ite_some_none_eq_some.1 h
    simp only [exec, execCall, push_full h0, orRaise_error]
  | skipIfKeyPressed x =>
    obtain ⟨h0, rfl⟩ := ite_some_none_eq_some.1 h
    simp only [exec, execSkipIfKeyPressed, keyAt_error h0, orRaise_error]
  | skipIfKeyNotPressed x =>
    obtain ⟨h0, rfl⟩ := ite_some_none_eq_some.1 h
    simp only [exec, execSkipIfKeyNotPressed, keyAt_error h0, orRaise_error]
  | addToIndex x =>
    obtain ⟨h0, rfl⟩ := ite_some_none_eq_some.1 h
    have hsum : Config.memSize ≤ s.indexSum x := h0
    simp only [exec, execAddToIndex, if_pos hsum, orRaise_error]
    rfl
  | storeBcd x =>
    obtain ⟨h0, rfl⟩ := ite_some_none_eq_some.1 h
    have hrange : 4096 < s.index + 3 := by omega
    simp only [exec, execStoreBcd, whenInRange_error (by decide) hrange, orRaise_error]
  | registerDump x =>
    obtain ⟨h0, rfl⟩ := ite_some_none_eq_some.1 h
    have hrange : 4096 < s.index + (x.val + 1) := by omega
    simp only [exec, execRegisterDump, rangeLength, whenInRange_error (Nat.succ_ne_zero _) hrange, orRaise_error]
  | registerLoad x =>
    obtain ⟨h0, rfl⟩ := ite_some_none_eq_some.1 h
    have hrange : 4096 < s.index + (x.val + 1) := by omega
    simp only [exec, execRegisterLoad, rangeLength, whenInRange_error (Nat.succ_ne_zero _) hrange, orRaise_error]
  | drawSprite x y n =>
    simp only [Instr.cause] at h
    split at h
    case isTrue hbytes =>
      obtain rfl := Option.some.inj h
      have hrange : 4096 < s.index + n.val := by omega
      simp only [exec, execDrawSprite, drawAt_range (Nat.ne_of_gt hbytes.1) hrange, orRaise_error]
    case isFalse hbytes =>
      obtain ⟨⟨hedge, hleaves⟩, rfl⟩ := ite_some_none_eq_some.1 h
      have hrange : n.val = 0 ∨ s.index + n.val ≤ 4096 := by omega
      simp only [exec, execDrawSprite, drawAt_edge hrange hedge hleaves, orRaise_error]
  | _ => nomatch h

/-- An instruction without a cause has its effect. -/
theorem exec_of_no_cause {i : Instr} {s : State} (h : i.cause s = none) : exec i s = .next (i.effect s) := by
  cases i with
  | ret => simp only [exec, execReturn, pop_some (sp_pos_of_ret h), orRaise_ok, Instr.effect]
  | call nnn => simp only [exec, execCall, push_pc_room (sp_lt_of_call h), orRaise_ok, Instr.effect]
  | skipIfKeyPressed x =>
    simp only [exec, execSkipIfKeyPressed, keyAt_eq_keyNamed (ite_some_none_eq_none.1 h), orRaise_ok, Instr.effect]
  | skipIfKeyNotPressed x =>
    simp only [exec, execSkipIfKeyNotPressed, keyAt_eq_keyNamed (ite_some_none_eq_none.1 h), orRaise_ok, Instr.effect]
  | addToIndex x =>
    have hsum : ¬ Config.memSize ≤ s.indexSum x := Nat.not_le.2 (Nat.lt_succ_of_le (indexSum_le_of_addToIndex h))
    simp only [exec, execAddToIndex, if_neg hsum, orRaise_ok, Instr.effect]
  | storeBcd x =>
    simp only [exec, execStoreBcd, whenInRange_ok (.inr (index_le_of_storeBcd h)), orRaise_ok, Instr.effect]
  | registerDump x =>
    simp only [exec, execRegisterDump, rangeLength, whenInRange_ok (.inr (index_le_of_registerDump h)), orRaise_ok, Instr.effect]
  | registerLoad x =>
    simp only [exec, execRegisterLoad, rangeLength, whenInRange_ok (.inr (index_le_of_registerLoad h)), orRaise_ok,
      loadRegs_regsUpTo, Instr.effect]
  | drawSprite x y n =>
    obtain ⟨hrange, hedge⟩ := drawSprite_cause_none h
    simp only [exec, execDrawSprite, drawAt_eq_drawn (Nat.le_of_lt_succ n.isLt) hrange hedge, orRaise_ok, Instr.effect]
  | waitForKey x =>
    simp only [exec, execWaitForKey, Instr.effect]
    cases s.takeKey x <;> rfl
  | _ => rfl

/-- What an instruction can do: take the fault of its cause, or have its effect. -/
theorem exec_cases {i : Instr} {s t : State} (h : exec i s = .next t) :
    (∃ c, i.cause s = some c ∧ t = s.raise (encode i) c) ∨ (i.cause s = none ∧ t = i.effect s) := by
  cases hc : i.cause s with
  | none =>
    rw [exec_of_no_cause hc] at h
    cases h
    exact .inr ⟨rfl, rfl⟩
  | some c =>
    rw [exec_of_cause hc] at h
    cases h
    exact .inl ⟨c, rfl, rfl⟩

end Sys2Proof.Machine
end

section
/-! SUPPORT. What the effects of the instructions keep: their frames, the bounds on `I`, `pc` and the saved values, the canonical
form of memory, the run state. -/

namespace Sys2Proof.Machine

/-! ### Frames -/

/-- A write of the screen and of the flag, by a sprite. -/
theorem keeps_drawn (s : State) (fb : Framebuffer) (f : Bool) :
    Keeps { Changes.oneReg 15 with fb := true } s (State.setFlag { s with fb := fb } f).advance := by
  have hflag := keeps_setReg { s with fb := fb } 15 (flagByte f)
  exact { hflag with fb := nofun }

/-- One register, and a draw used up. -/
theorem keeps_setReg_draws (s : State) (x : Reg) (b : Byte) (n : Nat) :
    Keeps { Changes.oneReg x with draws := true } s { (s.setReg x b).advance with draws := n } :=
  { keeps_setReg s x b with draws := nofun }

/-- Without a key a wait-for-key writes the run state and the latch, with one a register. -/
theorem keeps_waitForKey (s : State) (x : Reg) :
    Keeps ((Instr.waitForKey x).writes s) s ((Instr.waitForKey x).effect s) := by
  rcases effect_waitForKey s x with ⟨hkey, heff⟩ | ⟨k, hk, heff⟩ <;> rw [heff, Instr.writes]
  · rw [if_neg (fun h => any_key_iff.1 h hkey)]
    constructor <;> intros <;> trivial
  · rw [if_pos (any_key_iff.2 fun hkey => by simp [hkey k] at hk)]
    exact keeps_setReg_draws s x _ _

/-- A write of the general registers, some of them unchanged. -/
theorem keeps_setRegs (s : State) (v : Vector Byte 16) (c : Reg → Bool) (hv : ∀ r, c r = false → v[r.val] = s.reg r) :
    Keeps { regs := c } s (State.advance { s with v := v }) :=
  { keeps_setPc s s.pc with regs := hv }

theorem loadedRegs_above {s : State} {x r : Reg} (h : decide (r ≤ x) = false) : (s.loadedRegs x)[r.val] = s.reg r := by
  simp [State.loadedRegs, of_decide_eq_false h]

/-- An effect writes what the tables name (10_state.md R22) and nothing else. -/
theorem effect_keeps (i : Instr) (s : State) : Keeps (i.writes s) s (i.effect s) := by
  cases i with
  | callLegacy | jump | jumpWithOffset => exact keeps_setPc s _
  | skipIfEqualImmediate | skipIfNotEqualImmediate | skipIfRegistersEqual | skipIfRegistersNotEqual
  | skipIfKeyPressed | skipIfKeyNotPressed => exact keeps_setPc s _
  | setImmediate x | addImmediate x | setRegister x | orRegisters x | andRegisters x | xorRegisters x
  | readDelayTimer x => exact keeps_setReg s x _
  | addRegisters x | subRegisters x | subRegistersReversed x | shiftRight x | shiftLeft x =>
    exact keeps_setResultAndFlag s x _ _
  | setIndex | addToIndex | setIndexToSpriteChar => exact keeps_setIndex s _
  | randomAnd x => exact keeps_setReg_draws s x _ _
  | drawSprite => exact keeps_drawn s _ _
  | waitForKey x => exact keeps_waitForKey s x
  | storeBcd x => exact keeps_storeBytes s s.index (bcdDigits (s.reg x))
  | registerDump x =>
    have hstore := keeps_storeBytes s s.index (s.regBytes x)
    rwa [regBytes_length] at hstore
  | registerLoad x => exact keeps_setRegs s _ _ fun _ => loadedRegs_above
  | ret | call => exact { keeps_setPc s s.pc with stack := nofun }
  | clearScreen => exact { keeps_setPc s s.pc with fb := nofun }
  | setDelayTimer => exact { keeps_setPc s s.pc with dt := nofun }
  | setSoundTimer => exact { keeps_setPc s s.pc with st := nofun }

/-! ### The run state and the diagnostic record -/

theorem effect_diag (i : Instr) (s : State) : (i.effect s).diag = s.diag := by
  refine (effect_keeps i s).diag ?_
  cases i with
  | waitForKey x => rw [Instr.writes]; split <;> rfl
  | _ => rfl

/-- Only a wait-for-key touches the run state, when it suspends. -/
theorem effect_run (i : Instr) (s : State) : (i.effect s).run = s.run ∨
    ∃ x, i = .waitForKey x ∧ i.effect s = { s with waitX := x, run := .awaitingKey } := by
  cases i with
  | waitForKey x =>
    rcases effect_waitForKey s x with ⟨-, heff⟩ | ⟨k, -, heff⟩
    · exact .inr ⟨x, rfl, heff⟩
    · exact .inl (by rw [heff]; rfl)
  | _ => exact .inl rfl

/-! ### Memory -/

/-- Storing bytes in range keeps the canonical form. -/
theorem effect_mem_wf {i : Instr} {s : State} (hc : i.cause s = none) (hm : s.mem.wf = true) :
    (i.effect s).mem.wf = true := by
  cases i with
  | storeBcd x => exact Memory.writeBytes_wf hm (.inr (index_le_of_storeBcd hc))
  | registerDump x =>
    have hrange : s.index + (s.regBytes x).length ≤ 4096 := by rw [regBytes_length]; exact index_le_of_registerDump hc
    exact Memory.writeBytes_wf hm (.inr hrange)
  | waitForKey x =>
    rcases effect_waitForKey s x with ⟨-, heff⟩ | ⟨k, -, heff⟩ <;> rw [heff] <;> exact hm
  | _ => exact hm

/-! ### Bounds -/

theorem toNat_add_le (w n : Word) : (w + n).toNat ≤ w.toNat + n.toNat := by
  rw [BitVec.toNat_add]
  exact Nat.mod_le _ _

/-- Two or four bytes on from an instruction fetched at most at 4094. -/
theorem pc_add_le {w n : Word} (hw : w.toNat ≤ 4094) (hn : n.toNat ≤ 4) : (w + n).toNat ≤ 0x10FE :=
  (toNat_add_le w n).trans (by omega)

theorem addr16_le (nnn : BitVec 12) : (addr16 nnn).toNat ≤ 4095 := by
  have := nnn.isLt
  simp only [addr16, BitVec.truncate_eq_setWidth, BitVec.toNat_setWidth]
  omega

theorem zext16_le (b : Byte) : (zext16 b).toNat ≤ 255 := by
  have := b.isLt
  simp only [zext16, BitVec.truncate_eq_setWidth, BitVec.toNat_setWidth]
  omega

theorem spriteCharAddress_le (b : Byte) : (spriteCharAddress b).toNat ≤ 4095 := by
  have := zext16_le b
  have hmul : (spriteCharAddress b).toNat = (zext16 b).toNat * 5 % 65536 := BitVec.toNat_mul ..
  exact (hmul.trans_le (Nat.mod_le _ _)).trans (by omega)

/-- `I` stays at most 4095 (10_state.md R26). -/
theorem effect_index_le {i : Instr} {s : State} (hc : i.cause s = none) (hi : s.i.toNat ≤ 4095) :
    (i.effect s).i.toNat ≤ 4095 := by
  cases i with
  | setIndex nnn => exact addr16_le nnn
  | setIndexToSpriteChar x => exact spriteCharAddress_le _
  | addToIndex x =>
    have hsum := indexSum_le_of_addToIndex hc
    simp only [Instr.effect, advance_i, setIndex_i, BitVec.toNat_ofNat]
    omega
  | waitForKey x =>
    rcases effect_waitForKey s x with ⟨-, heff⟩ | ⟨k, -, heff⟩ <;> rw [heff] <;> exact hi
  | _ => exact hi

/-- Every saved value is an address an instruction can be fetched from (41_flow.md R120). -/
def State.savedFetchable (s : State) : Prop := ∀ k : Fin 16, k.val < s.sp.val → s.stack[k.val].toNat ≤ 4094

/-- A call saves the address it was fetched from, the others save nothing. -/
theorem effect_savedFetchable {i : Instr} {s : State} (hc : i.cause s = none) (hp : s.pc.toNat ≤ 4094)
    (hs : s.savedFetchable) : (i.effect s).savedFetchable := by
  cases i with
  | ret => exact fun k hk => hs k (Nat.lt_of_lt_of_le hk (Nat.sub_le _ _))
  | call nnn =>
    have hroom := sp_lt_of_call hc
    intro k hk
    simp only [Instr.effect, setPc_sp, Fin.val_add] at hk
    simp only [Instr.effect, setPc_stack, Vector.getElem_setIfInBounds]
    split
    · exact hp
    · exact hs k (by omega)
  | waitForKey x =>
    rcases effect_waitForKey s x with ⟨-, heff⟩ | ⟨k, -, heff⟩ <;> rw [heff] <;> exact hs
  | _ => exact hs

/-- `pc` is at most `10FE` after an instruction fetched at most at 4094: the furthest target is `FFF + FF` (10_state.md R25). -/
theorem effect_pc_le {i : Instr} {s : State} (hc : i.cause s = none) (hp : s.pc.toNat ≤ 4094) (hs : s.savedFetchable) :
    (i.effect s).pc.toNat ≤ 0x10FE := by
  have hnext : (s.pc + 2).toNat ≤ 0x10FE := pc_add_le hp (by decide)
  have hskip : ∀ c : Bool, (s.skipWhen c).pc.toNat ≤ 0x10FE := fun c => pc_add_le hp (by cases c <;> decide)
  cases i with
  | ret =>
    have hdepth := sp_pos_of_ret hc
    have hsaved : s.stack[s.sp.val - 1].toNat ≤ 4094 := hs ⟨s.sp.val - 1, by omega⟩ (Nat.sub_lt hdepth Nat.one_pos)
    exact pc_add_le hsaved (by decide)
  | jump nnn | call nnn => exact (addr16_le nnn).trans (by decide)
  | jumpWithOffset nnn =>
    have := addr16_le nnn
    have := zext16_le (s.reg 0)
    exact (toNat_add_le _ _).trans (by omega)
  | skipIfEqualImmediate | skipIfNotEqualImmediate | skipIfRegistersEqual | skipIfRegistersNotEqual
  | skipIfKeyPressed | skipIfKeyNotPressed => exact hskip _
  | waitForKey x =>
    rcases effect_waitForKey s x with ⟨-, heff⟩ | ⟨k, -, heff⟩ <;> rw [heff]
    · exact hp.trans (by decide)
    · exact hnext
  | _ => exact hnext

end Sys2Proof.Machine
end

section
/-! SUPPORT. What a cycle and a step can do, said once: the turn that is taken, and for the core's turn the four ends of a cycle. -/

namespace Sys2Proof.Machine

/-- The fetch succeeds exactly when `pc` is at most 4094 (20_memory.md R56). -/
theorem fetch_eq_ok_iff {s : State} {w : Word} : s.fetch = .ok w ↔ s.fetches w := by
  by_cases h : 4095 ≤ s.pc.toNat
  · simp only [fetch_error h, reduceCtorEq, State.fetches, false_iff, not_and]
    omega
  · have hrange : rangeCause .fetch s.pc.toNat 2 = none := rangeCause_none.2 (.inr (by omega))
    simp only [State.fetch, hrange, Except.ok.injEq, State.fetches, wordOfBytes]
    exact ⟨fun e => ⟨by omega, e.symm⟩, fun e => e.2.symm⟩

/-- The four ends of a cycle of the core (40_cycle.md R100 to R103). -/
inductive State.CycleTo (s : State) : State → Prop where
  /-- A stopped machine stays as it is (R101). -/
  | stays (hrun : s.run = .stopped) : CycleTo s s
  /-- A machine that awaits a key polls the keys (R102). -/
  | polls (hrun : s.run = .awaitingKey) : CycleTo s s.pollKey
  /-- The fetch, the decoding or the instruction ends in a fault. -/
  | raises (hrun : s.run = .running) (w : Word) (c : Cause) : CycleTo s (s.raise w c)
  /-- The fetched instruction raises nothing and has its effect. -/
  | completes (hrun : s.run = .running) {w : Word} {i : Instr} (hw : s.fetches w) (hd : decodeWord w = .ok i)
      (hc : i.cause s = none) : CycleTo s (i.effect s)

theorem cycleTo_of_cycle {s t : State} (h : s.cycle = .next t) : s.CycleTo t := by
  unfold State.cycle at h
  split at h
  case h_1 hrun =>
    obtain rfl := Host.Outcome.next.inj h
    exact .stays hrun
  case h_2 hrun =>
    obtain rfl := Host.Outcome.next.inj h
    exact .polls hrun
  case h_3 hrun =>
    unfold State.runCycle at h
    split at h
    case h_1 c _ =>
      obtain rfl := Host.Outcome.next.inj h
      exact .raises hrun 0 c
    case h_2 w hw =>
      split at h
      case h_1 =>
        obtain rfl := Host.Outcome.next.inj h
        exact .raises hrun w .unsupportedOpcode
      case h_2 i hd =>
        rcases exec_cases h with ⟨c, -, rfl⟩ | ⟨hc, rfl⟩
        · exact .raises hrun _ c
        · exact .completes hrun (fetch_eq_ok_iff.1 hw) hd hc

/-- The poll of a waiting machine: nothing, or the completion of its wait-for-key (40_cycle.md R102). -/
theorem pollKey_cases (s : State) : (s.noKey ∧ s.pollKey = s) ∨ ∃ k : Reg, s.key k = true ∧
    s.pollKey = { (s.setReg s.waitX (BitVec.ofNat 8 k.val)).advance with draws := s.draws + 1, run := .running } := by
  by_cases h : s.noKey
  · exact .inl ⟨h, by rw [State.pollKey, takeKey_none _ h]⟩
  · obtain ⟨k, hk, htake⟩ := takeKey_some s.waitX h
    exact .inr ⟨k, hk, by rw [State.pollKey, htake]⟩

/-! ### Turns -/

/-- The same machine under another schedule. -/
def State.withSchedule (s : State) (turns : List Turn) (beyond : Beyond) : State := { s with turns := turns, beyond := beyond }

/-- Taking a turn off changes the schedule alone. -/
theorem nextTurn_snd (s : State) : ∃ turns beyond, s.nextTurn.2 = s.withSchedule turns beyond := by
  cases hturns : s.turns with
  | cons turn rest => exact ⟨rest, s.beyond, by rw [nextTurn_listed hturns]; rfl⟩
  | nil =>
    obtain ⟨block, b, hsplit⟩ : ∃ block b, s.beyond.split = (block, b) := ⟨_, _, rfl⟩
    cases block with
    | nil => exact ⟨[], b, by rw [nextTurn_core hturns hsplit, ← hturns]; rfl⟩
    | cons turn rest => exact ⟨rest ++ [.core], b, by rw [nextTurn_block hturns hsplit]; rfl⟩

theorem eq_withSchedule_of_nextTurn {s u : State} {turn : Turn} (h : s.nextTurn = (turn, u)) :
    ∃ turns beyond, u = s.withSchedule turns beyond := by
  have hsnd := nextTurn_snd s
  rwa [h] at hsnd

/-- A property of states that no schedule matters to is kept by every step, if cycles, ticks and key moves keep it. -/
theorem step_induction {P : State → Prop} {s t : State} (hs : P s)
    (schedule : ∀ {s} (turns : List Turn) (beyond : Beyond), P s → P (s.withSchedule turns beyond))
    (cycle : ∀ {s t}, P s → s.CycleTo t → P t) (tick : ∀ {s}, P s → P s.tick) (keys : ∀ {s} ks, P s → P (s.setKeys ks))
    (h : step s = .next t) : P t := by
  obtain ⟨turns, beyond, hu⟩ := nextTurn_snd s
  have hP : P s.nextTurn.2 := hu ▸ schedule turns beyond hs
  unfold step State.takeTurn at h
  split at h
  case h_1 u hnext =>
    rw [hnext] at hP
    exact cycle hP (cycleTo_of_cycle h)
  case h_2 u hnext =>
    rw [hnext] at hP
    obtain rfl := Host.Outcome.next.inj h
    exact tick hP
  case h_3 ks u hnext =>
    rw [hnext] at hP
    obtain rfl := Host.Outcome.next.inj h
    exact keys ks hP

end Sys2Proof.Machine
end

section
/-! The invariant at reset and along every step. -/

namespace Sys2Proof.Machine

/-- What the timers, the keys and the schedule are has no part in the invariant. -/
theorem inv_outside {s : State} (hs : s.Inv) (dt st : Byte) (keys : Vector Bool 16) (turns : List Turn) (beyond : Beyond) :
    State.Inv { s with dt := dt, st := st, keys := keys, turns := turns, beyond := beyond } :=
  ⟨hs.memCanonical, hs.index, hs.pc, hs.saved, hs.waiting, hs.stopped, hs.notStopped⟩

theorem inv_raise {s : State} (w : Word) (c : Cause) (hs : s.Inv) : (s.raise w c).Inv :=
  ⟨hs.memCanonical, hs.index, hs.pc, hs.saved, nofun, fun _ => ⟨rfl, rfl⟩, fun h => absurd rfl h⟩

/-- A waiting machine stands at an instruction it has fetched, so `pc` has room to advance. -/
theorem inv_pollKey {s : State} (hs : s.Inv) (hrun : s.run = .awaitingKey) : s.pollKey.Inv := by
  rcases pollKey_cases s with ⟨-, hpoll⟩ | ⟨k, -, hpoll⟩ <;> rw [hpoll]
  · exact hs
  · obtain ⟨w, ⟨hpc, -⟩, -⟩ := hs.waiting hrun
    have hnext : (s.pc + 2).toNat ≤ 0x10FE := pc_add_le hpc (by decide)
    have hdiag : s.diag = Diag.zero := hs.notStopped (by simp [hrun])
    exact ⟨hs.memCanonical, hs.index, hnext, hs.saved, nofun, nofun, fun _ => hdiag⟩

/-- The effect of the fetched instruction: the machine runs on, or waits at the wait-for-key it has fetched. -/
theorem inv_effect {s : State} {i : Instr} {w : Word} (hs : s.Inv) (hrun : s.run = .running) (hw : s.fetches w)
    (hd : decodeWord w = .ok i) (hc : i.cause s = none) : (i.effect s).Inv := by
  have hdiag : (i.effect s).diag = Diag.zero := (effect_diag i s).trans (hs.notStopped (by simp [hrun]))
  refine ⟨effect_mem_wf hc hs.memCanonical, effect_index_le hc hs.index, effect_pc_le hc hw.1 hs.saved,
    effect_savedFetchable hc hw.1 hs.saved, fun hwait => ?_, fun hstop => ?_, fun _ => hdiag⟩
  all_goals rcases effect_run i s with hsame | ⟨x, rfl, heff⟩
  · simp [hsame, hrun] at hwait
  · rw [heff]
    exact ⟨w, hw, hd⟩
  · simp [hsame, hrun] at hstop
  · simp [heff] at hstop

theorem inv_cycleTo {s t : State} (hs : s.Inv) (h : s.CycleTo t) : t.Inv := by
  cases h with
  | stays => exact hs
  | polls hrun => exact inv_pollKey hs hrun
  | raises _ w c => exact inv_raise w c hs
  | completes hrun hw hd hc => exact inv_effect hs hrun hw hd hc

/-- Settles O11: the invariant is kept by each end of a cycle and by the moves of the agents outside the core. -/
theorem stepKeepsTheInvariant : Obligations.StepKeepsTheInvariant :=
  fun _ _ hs => step_induction hs (fun _ _ h => inv_outside h _ _ _ _ _) inv_cycleTo (fun h => inv_outside h _ _ _ _ _)
    (fun _ h => inv_outside h _ _ _ _ _)

/-- Settles O9. -/
theorem resetMeetsTheInvariant : Obligations.ResetMeetsTheInvariant where
  memCanonical := rfl
  index := Nat.zero_le _
  pc := by decide
  saved := nofun
  waiting := nofun
  stopped := nofun
  notStopped := fun _ => rfl

theorem mem_wf_cycleTo {s t : State} (hm : s.mem.wf = true) (h : s.CycleTo t) : t.mem.wf = true := by
  cases h with
  | stays | raises => exact hm
  | polls => rcases pollKey_cases s with ⟨-, hpoll⟩ | ⟨k, -, hpoll⟩ <;> rw [hpoll] <;> exact hm
  | completes _ _ _ hc => exact effect_mem_wf hc hm

/-- Settles O12: of all the ends of a step only an effect without a cause writes memory, and it writes in range. -/
theorem stepKeepsMemoryCanonical : Obligations.StepKeepsMemoryCanonical :=
  fun _ _ hm => step_induction (P := fun s => s.mem.wf = true) hm (fun _ _ h => h) mem_wf_cycleTo id (fun _ h => h)

end Sys2Proof.Machine
end

section
/-! The canonical form of memory is one, and the loaded machine is the reset table. -/

namespace Sys2Proof.Machine

theorem Memory.read_cons_same (k : Nat) (b : Byte) (m : Memory) : Memory.read ((k, b) :: m) k = b := if_pos rfl

theorem Memory.read_cons_other {k a : Nat} (b : Byte) (m : Memory) (h : k ≠ a) :
    Memory.read ((k, b) :: m) a = Memory.read m a := if_neg h

/-- A canonical memory that reads as the default everywhere is empty. -/
theorem Memory.eq_nil_of_read_default {lo : Nat} {m : Memory} (hm : Memory.wfFrom lo m = true)
    (h : ∀ a, m.read a = Config.memDefault) : m = [] := by
  cases m with
  | nil => rfl
  | cons c m =>
    obtain ⟨k, b⟩ := c
    obtain ⟨-, -, hb, -⟩ := Memory.wfFrom_cons.1 hm
    exact absurd ((Memory.read_cons_same k b m).symm.trans (h k)) hb

/-- The first address of a canonical memory is not above that of one that reads alike. -/
theorem Memory.first_le_of_read_eq {lo k k' : Nat} {b b' : Byte} {m m' : Memory}
    (hm : Memory.wfFrom lo ((k, b) :: m) = true) (hm' : Memory.wfFrom lo ((k', b') :: m') = true)
    (h : ∀ a, Memory.read ((k, b) :: m) a = Memory.read ((k', b') :: m') a) : k' ≤ k := by
  by_contra hlt
  obtain ⟨-, -, hb, -⟩ := Memory.wfFrom_cons.1 hm
  obtain ⟨-, hrest⟩ := Memory.wfFrom_cons.1 hm'
  have hfrom : Memory.wfFrom k' ((k', b') :: m') = true := Memory.wfFrom_cons.2 ⟨Nat.le_refl k', hrest⟩
  have hbelow := Memory.read_below hfrom (Nat.lt_of_not_le hlt)
  rw [← h k, Memory.read_cons_same] at hbelow
  exact hb hbelow

/-- Two canonical memories that read alike begin with the same cell, and their rests read alike. -/
theorem Memory.eq_of_read_eq {lo : Nat} {m m' : Memory} (hm : Memory.wfFrom lo m = true) (hm' : Memory.wfFrom lo m' = true)
    (h : ∀ a, m.read a = m'.read a) : m = m' := by
  induction m generalizing lo m' with
  | nil => exact (Memory.eq_nil_of_read_default hm' fun a => (h a).symm).symm
  | cons c m ih =>
    cases m' with
    | nil => exact Memory.eq_nil_of_read_default hm h
    | cons c' m' =>
      obtain ⟨k, b⟩ := c
      obtain ⟨k', b'⟩ := c'
      obtain rfl : k = k' :=
        Nat.le_antisymm (Memory.first_le_of_read_eq hm' hm fun a => (h a).symm) (Memory.first_le_of_read_eq hm hm' h)
      obtain rfl : b = b' := by simpa only [Memory.read_cons_same] using h k
      obtain ⟨-, -, -, hrest⟩ := Memory.wfFrom_cons.1 hm
      obtain ⟨-, -, -, hrest'⟩ := Memory.wfFrom_cons.1 hm'
      have hread : ∀ a, Memory.read m a = Memory.read m' a := fun a => by
        by_cases ha : k = a
        · have hbelow : a < k + 1 := Nat.lt_succ_of_le ha.ge
          rw [Memory.read_below hrest hbelow, Memory.read_below hrest' hbelow]
        · simpa only [Memory.read_cons_other b _ ha] using h a
      rw [ih hrest hrest' hread]

/-- Settles O6. -/
theorem memoriesThatReadAlikeAreEqual : Obligations.MemoriesThatReadAlikeAreEqual :=
  fun _ _ hm hm' h => Memory.eq_of_read_eq hm hm' h

/-- An image of admissible length is copied from the load base upward (70_reset_and_hazards.md R241). -/
theorem loadImage_of_le {image : List Byte} (h : image.length ≤ 3584) (s : State) :
    State.loadImage image s = .next (s.storeBytes 0x200 image) := if_pos h

/-- Memory after an image of admissible length is copied into the empty memory. -/
theorem read_loaded {image : List Byte} (h : image.length ≤ 3584) (a : Nat) :
    (Memory.writeBytes [] 0x200 image).read a = if 0x200 ≤ a then (image[a - 0x200]?).getD 0 else 0 :=
  Memory.read_writeBytes rfl (.inr (by simp only [Config.memSize]; omega))

/-- Settles O7: the loader writes memory alone, and the bytes it writes are the image's. -/
theorem launchStateHoldsTheResetTable : Obligations.LaunchStateHoldsTheResetTable := by
  intro image hlen
  have hbelow : ∀ a, a < 0x200 → (Memory.writeBytes [] 0x200 image).read a = 0 := fun a ha => by
    rw [read_loaded hlen, if_neg (by omega)]
  have hinside : ∀ j b, image[j]? = some b → (Memory.writeBytes [] 0x200 image).read (0x200 + j) = b := fun j b hb => by
    rw [read_loaded hlen, if_pos (by omega), Nat.add_sub_cancel_left, hb, Option.getD_some]
  have habove : ∀ a, 0x200 + image.length ≤ a → (Memory.writeBytes [] 0x200 image).read a = 0 := fun a ha => by
    rw [read_loaded hlen, if_pos (by omega), List.getElem?_eq_none (by omega), Option.getD_none]
  have hregs : ∀ r, State.reset.reg r = 0 := fun r => by simp [State.reg, State.reset]
  have hstack : ∀ k : Fin 16, State.reset.stack[k.val] = 0 := fun k => by simp [State.reset]
  have hkeys : ∀ k, State.reset.key k = false := fun k => by simp [State.key, State.reset]
  exact ⟨_, loadImage_of_le hlen _, hregs, rfl, rfl, rfl, hstack, rfl, rfl, hkeys, pixel_clear, hbelow, hinside, habove,
    rfl, rfl, rfl⟩

end Sys2Proof.Machine
end

section
/-! What the instructions write: the frames of the tables and the values of the flag. -/

namespace Sys2Proof.Machine

/-- Settles O50. -/
theorem instructionsWriteOnlyWhatTheTablesName : Obligations.InstructionsWriteOnlyWhatTheTablesName := by
  intro i s t h hc
  rw [exec_of_no_cause hc] at h
  obtain rfl := Host.Outcome.next.inj h
  exact effect_keeps i s

/-- After a result and its flag are written the flag register holds 0 or 1, the result's register being the flag's or not. -/
theorem flag_setResultAndFlag (s : State) (x : Reg) (b : Byte) (f : Bool) :
    (s.setResultAndFlag x b f).advance.reg 15 = 0 ∨ (s.setResultAndFlag x b f).advance.reg 15 = 1 := by
  rw [reg_advance, reg_setResultAndFlag, if_pos rfl]
  exact flagByte_zero_or_one f

/-- Settles O34. -/
theorem sixFlagWritersLeaveZeroOrOneInTheFlag : Obligations.SixFlagWritersLeaveZeroOrOneInTheFlag := by
  intro s t x y n
  constructor
  · intro i hi h
    simp only [List.mem_cons, List.not_mem_nil, or_false] at hi
    rcases hi with rfl | rfl | rfl | rfl | rfl <;> obtain rfl := Host.Outcome.next.inj h <;>
      exact flag_setResultAndFlag s x _ _
  · intro hc h
    rw [exec_of_no_cause hc] at h
    obtain rfl := Host.Outcome.next.inj h
    rw [Instr.effect, reg_advance, reg_setFlag, if_pos rfl]
    exact flagByte_zero_or_one _

end Sys2Proof.Machine
end

section
/-! The word a fault latches is the word that was fetched. -/

namespace Sys2Proof.Machine

/-! ### The canonical word of a decoded word -/

theorem opClass_lt (w : Word) : opClass w < 16 := by
  have := w.isLt
  rw [opClass_eq]
  omega

theorem packNNN_fields {w : Word} {c : Nat} (hc : opClass w = c) : packNNN c (fieldNNN w) = w := by
  have hlt : c < 16 := hc ▸ opClass_lt w
  rw [opClass_eq] at hc
  apply BitVec.eq_of_toNat_eq
  rw [packNNN_toNat hlt, fieldNNN_toNat]
  omega

theorem packXNN_fields {w : Word} {c : Nat} {nn : Byte} (hc : opClass w = c) (hnn : (fieldNN w).toNat = nn.toNat) :
    packXNN c (fieldX w) nn = w := by
  have hlt : c < 16 := hc ▸ opClass_lt w
  rw [opClass_eq] at hc
  apply BitVec.eq_of_toNat_eq
  rw [packXNN_toNat hlt, ← hnn, fieldX_val, fieldNN_toNat]
  omega

theorem packXYN_fields {w : Word} {c n : Nat} (hc : opClass w = c) (hn : (fieldN w).val = n) :
    packXYN c (fieldX w) (fieldY w) n = w := by
  have hlt : c < 16 := hc ▸ opClass_lt w
  have hlt' : n < 16 := hn ▸ (fieldN w).isLt
  rw [opClass_eq] at hc
  rw [fieldN_val] at hn
  apply BitVec.eq_of_toNat_eq
  rw [packXYN_toNat hlt hlt', fieldX_val, fieldY_val]
  omega

theorem encode_decodeClass0 {w : Word} (hc : opClass w = 0) : encode (decodeClass0 w) = w := by
  have hw := packNNN_fields hc
  unfold decodeClass0
  split
  case isTrue h => rwa [h] at hw
  case isFalse =>
    split
    case isTrue h => rwa [h] at hw
    case isFalse => exact hw

theorem encode_of_decodeClass8 {w : Word} {i : Instr} (hc : opClass w = 8) (hd : decodeClass8 w = .ok i)
    (hx : i.examined = 0xFFFF#16) : encode i = w := by
  unfold decodeClass8 at hd
  split at hd <;> cases hd
  case h_7 | h_9 => simp [Instr.examined] at hx
  all_goals exact packXYN_fields hc ‹_›

theorem encode_of_decodeClass14 {w : Word} {i : Instr} (hc : opClass w = 14) (hd : decodeClass14 w = .ok i) : encode i = w := by
  unfold decodeClass14 at hd
  split at hd <;> cases hd
  all_goals exact packXNN_fields hc ‹_›

theorem encode_of_decodeClass15 {w : Word} {i : Instr} (hc : opClass w = 15) (hd : decodeClass15 w = .ok i) : encode i = w := by
  unfold decodeClass15 at hd
  split at hd <;> cases hd
  all_goals exact packXNN_fields hc ‹_›

/-- An instruction that examines every bit of its word has that word as its canonical one (30_encoding.md R78). -/
theorem encode_of_decodeWord {w : Word} {i : Instr} (hd : decodeWord w = .ok i) (hx : i.examined = 0xFFFF#16) :
    encode i = w := by
  unfold decodeWord at hd
  split at hd
  case h_1 hc => cases hd; exact encode_decodeClass0 hc
  case h_2 hc | h_3 hc | h_11 hc | h_12 hc => cases hd; exact packNNN_fields hc
  case h_4 hc | h_5 hc | h_7 hc | h_8 hc | h_13 hc => cases hd; exact packXNN_fields hc rfl
  case h_6 | h_10 => cases hd; simp [Instr.examined] at hx
  case h_9 hc => exact encode_of_decodeClass8 hc hd hx
  case h_14 hc => cases hd; exact packXYN_fields hc rfl
  case h_15 hc => exact encode_of_decodeClass14 hc hd
  case h_16 =>
    have hlt := opClass_lt w
    have hc : opClass w = 15 := by simp only [imp_false] at *; omega
    exact encode_of_decodeClass15 hc hd

/-! ### Causes -/

/-- Every instruction that can raise a cause examines every bit of its word. -/
theorem examined_of_cause {i : Instr} {s : State} {c : Cause} (h : i.cause s = some c) : i.examined = 0xFFFF#16 := by
  cases i with
  | skipIfRegistersEqual | skipIfRegistersNotEqual | shiftRight | shiftLeft => nomatch h
  | _ => rfl

/-- No instruction raises the cause of an unsupported word (60_exceptions.md R201). -/
theorem cause_ne_unsupportedOpcode {i : Instr} {s : State} : i.cause s ≠ some .unsupportedOpcode := by
  intro h
  cases i with
  | ret | call | skipIfKeyPressed | skipIfKeyNotPressed | addToIndex | storeBcd | registerDump | registerLoad =>
    nomatch (ite_some_none_eq_some.1 h).2
  | drawSprite =>
    simp only [Instr.cause] at h
    split at h
    · nomatch h
    · nomatch (ite_some_none_eq_some.1 h).2
  | _ => nomatch h

/-- The result of a cycle that takes a fault other than an unsupported word (40_cycle.md R104). -/
theorem raise_result {s : State} {w : Word} {c : Cause} (h : c ≠ .unsupportedOpcode) :
    (s.raise w c).result = .fatal c.code c.kindCode c.info := by
  cases c with
  | unsupportedOpcode => contradiction
  | _ => rfl

/-- The schedule has no part in what an instruction raises. -/
theorem cause_withSchedule (i : Instr) (s : State) (turns : List Turn) (beyond : Beyond) :
    i.cause (s.withSchedule turns beyond) = i.cause s := by
  cases i <;> rfl

/-! ### The step -/

/-- A step of a running machine whose next turn is the core's is the fetched instruction (40_cycle.md R103). -/
theorem step_eq_exec {s u : State} {w : Word} {i : Instr} (hrun : s.run = .running) (hnext : s.nextTurn = (.core, u))
    (hw : s.fetches w) (hd : decodeWord w = .ok i) : step s = exec i u := by
  obtain ⟨turns, beyond, rfl⟩ := eq_withSchedule_of_nextTurn hnext
  have hfetch : (s.withSchedule turns beyond).fetch = .ok w := fetch_eq_ok_iff.2 hw
  have hrun' : (s.withSchedule turns beyond).run = .running := hrun
  simp only [step, State.takeTurn, hnext, State.cycle, hrun', State.runCycle, hfetch, hd]

/-- Settles O52: an instruction with a cause examines its whole word, so the canonical word it latches is the fetched one. -/
theorem faultLatchesTheFetchedWord : Obligations.FaultLatchesTheFetchedWord := by
  intro s u w i c hrun hnext hw hd hc
  obtain rfl : encode i = w := encode_of_decodeWord hd (examined_of_cause hc)
  have hstep := step_eq_exec hrun hnext hw hd
  obtain ⟨turns, beyond, rfl⟩ := eq_withSchedule_of_nextTurn hnext
  have hcu := (cause_withSchedule i s turns beyond).trans hc
  have hfatal : c ≠ .unsupportedOpcode := fun e => cause_ne_unsupportedOpcode (e ▸ hc)
  exact ⟨_, hstep.trans (exec_of_cause hcu), rfl, raise_result hfatal, rfl, rfl, raise_keeps _ _ _⟩

end Sys2Proof.Machine
end

section
/-! What no instruction reads: the sound timer, the diagnostic record, and the stack's entries above the depth. -/

namespace Sys2Proof.Machine

/-! ### The sound timer and the diagnostic record -/

/-- The same machine with another sound timer and diagnostic record. -/
def State.withSoundDiag (s : State) (b : Byte) (d : Diag) : State := { s with st := b, diag := d }

theorem cause_withSoundDiag (i : Instr) (s : State) (b : Byte) (d : Diag) : i.cause (s.withSoundDiag b d) = i.cause s := by
  cases i <;> rfl

theorem takeKey_withSoundDiag (s : State) (x : Reg) (b : Byte) (d : Diag) :
    (s.withSoundDiag b d).takeKey x = (s.takeKey x).map (·.withSoundDiag b d) := by
  have hkeys : (s.withSoundDiag b d).pressedKeys = s.pressedKeys := rfl
  unfold State.takeKey
  rw [hkeys]
  cases s.pressedKeys <;> rfl

theorem loadedRegs_withSoundDiag (s : State) (x : Reg) (b : Byte) (d : Diag) :
    (s.withSoundDiag b d).loadedRegs x = s.loadedRegs x := by
  unfold State.loadedRegs
  rfl

/-- The effects on both machines differ in the two places only; set-sound-timer makes even the sound timers agree. -/
theorem effect_withSoundDiag (i : Instr) (s : State) (b : Byte) (d : Diag) :
    ∃ b' d', i.effect (s.withSoundDiag b d) = (i.effect s).withSoundDiag b' d' := by
  cases i with
  | setSoundTimer x => exact ⟨s.reg x, d, rfl⟩
  | waitForKey x =>
    refine ⟨b, d, ?_⟩
    simp only [Instr.effect, takeKey_withSoundDiag]
    cases s.takeKey x <;> rfl
  | registerLoad x =>
    refine ⟨b, d, ?_⟩
    rw [Instr.effect, loadedRegs_withSoundDiag]
    rfl
  | _ => exact ⟨b, d, rfl⟩

/-- Settles O54. -/
theorem noInstructionReadsSoundTimerOrDiag : Obligations.NoInstructionReadsSoundTimerOrDiag := by
  intro i s t b d h
  have hcause := cause_withSoundDiag i s b d
  rcases exec_cases h with ⟨c, hc, rfl⟩ | ⟨hc, rfl⟩
  · exact ⟨b, _, exec_of_cause (hcause.trans hc)⟩
  · obtain ⟨b', d', heff⟩ := effect_withSoundDiag i s b d
    exact ⟨b', d', (exec_of_no_cause (hcause.trans hc)).trans (congrArg _ heff)⟩

/-! ### Stale stack entries -/

/-- The same machine with other stack entries. -/
def State.withStack (s : State) (stack : Vector Word 16) : State := { s with stack := stack }

/-- Two stacks agree on the entries below a depth. -/
def AgreeBelow (n : Nat) (stack stack' : Vector Word 16) : Prop := ∀ j, j < n → stack'[j]? = stack[j]?

theorem agreeBelow_set {n k : Nat} (stack : Vector Word 16) (w : Word) (hk : k < 16) (h : n ≤ k) :
    AgreeBelow n stack (stack.set k w) := fun j hj => by
  rw [Vector.getElem?_set_ne hk (by omega)]

theorem AgreeBelow.mono {m n : Nat} {stack stack' : Vector Word 16} (h : AgreeBelow n stack stack') (hm : m ≤ n) :
    AgreeBelow m stack stack' := fun j hj => h j (Nat.lt_of_lt_of_le hj hm)

/-- The same value pushed on both stacks. -/
theorem AgreeBelow.push {n : Nat} {stack stack' : Vector Word 16} (h : AgreeBelow n stack stack') (hn : n < 16) (w : Word) :
    AgreeBelow (n + 1) (stack.setIfInBounds n w) (stack'.setIfInBounds n w) := fun j hj => by
  by_cases hjn : n = j
  · subst hjn
    simp [hn]
  · rw [Vector.getElem?_setIfInBounds_ne hjn, Vector.getElem?_setIfInBounds_ne hjn, h j (by omega)]

theorem cause_withStack (i : Instr) (s : State) (stack : Vector Word 16) : i.cause (s.withStack stack) = i.cause s := by
  cases i <;> rfl

theorem takeKey_withStack (s : State) (x : Reg) (stack : Vector Word 16) :
    (s.withStack stack).takeKey x = (s.takeKey x).map (·.withStack stack) := by
  have hkeys : (s.withStack stack).pressedKeys = s.pressedKeys := rfl
  unfold State.takeKey
  rw [hkeys]
  cases s.pressedKeys <;> rfl

theorem loadedRegs_withStack (s : State) (x : Reg) (stack : Vector Word 16) :
    (s.withStack stack).loadedRegs x = s.loadedRegs x := by
  unfold State.loadedRegs
  rfl

/-- A return reads an entry below the depth, a call writes the entry at it, and no other instruction touches the stack. -/
theorem effect_withStack {i : Instr} {s : State} {stack : Vector Word 16} (hc : i.cause s = none)
    (h : AgreeBelow s.sp.val s.stack stack) : ∃ stack', i.effect (s.withStack stack) = (i.effect s).withStack stack' ∧
      AgreeBelow (i.effect s).sp.val (i.effect s).stack stack' := by
  cases i with
  | ret =>
    have hdepth := sp_pos_of_ret hc
    have htop : stack[s.sp.val - 1] = s.stack[s.sp.val - 1] := by
      have htop? := h (s.sp.val - 1) (by omega)
      rwa [Vector.getElem?_eq_getElem (by omega), Vector.getElem?_eq_getElem (by omega), Option.some.injEq] at htop?
    refine ⟨stack, ?_, h.mono (Nat.sub_le _ _)⟩
    simp only [Instr.effect, State.withStack, htop]
    rfl
  | call nnn =>
    have hroom := sp_lt_of_call hc
    have hsp : (s.sp + 1).val = s.sp.val + 1 := by simp only [Fin.val_add]; omega
    refine ⟨stack.setIfInBounds s.sp.val s.pc, rfl, ?_⟩
    simp only [Instr.effect, setPc_sp, setPc_stack, hsp]
    exact h.push hroom s.pc
  | waitForKey x =>
    have heff : (Instr.waitForKey x).effect (s.withStack stack) = ((Instr.waitForKey x).effect s).withStack stack := by
      simp only [Instr.effect, takeKey_withStack]
      cases s.takeKey x <;> rfl
    refine ⟨stack, heff, ?_⟩
    rcases effect_waitForKey s x with ⟨-, hsame⟩ | ⟨k, -, hsame⟩ <;> rw [hsame] <;> exact h
  | registerLoad x =>
    refine ⟨stack, ?_, h⟩
    rw [Instr.effect, loadedRegs_withStack]
    rfl
  | _ => exact ⟨stack, rfl, h⟩

/-- Settles O55. -/
theorem staleStackEntriesAreNeverRead : Obligations.StaleStackEntriesAreNeverRead := by
  intro i s t k w hk h
  have hagree : AgreeBelow s.sp.val s.stack (s.stack.set k.val w) := agreeBelow_set s.stack w k.isLt hk
  have hcause := cause_withStack i s (s.stack.set k.val w)
  rcases exec_cases h with ⟨c, hc, rfl⟩ | ⟨hc, rfl⟩
  · exact ⟨_, exec_of_cause (hcause.trans hc), hagree⟩
  · obtain ⟨stack', heff, hagree'⟩ := effect_withStack hc hagree
    exact ⟨stack', (exec_of_no_cause (hcause.trans hc)).trans (congrArg _ heff), hagree'⟩

end Sys2Proof.Machine
end

section
/-! The fetch: what it raises out of range, and that it reads what the instruction before it stored. -/

namespace Sys2Proof.Machine

/-! ### A fetch out of range -/

/-- A step of a running machine whose next turn is the core's is a cycle in `Running`, under the schedule that remains. -/
theorem step_eq_runCycle {s u : State} (hrun : s.run = .running) (hnext : s.nextTurn = (.core, u)) : step s = u.runCycle := by
  obtain ⟨turns, beyond, rfl⟩ := eq_withSchedule_of_nextTurn hnext
  have hrun' : (s.withSchedule turns beyond).run = .running := hrun
  simp only [step, State.takeTurn, hnext, State.cycle, hrun']

theorem runCycle_of_fetch_error {s : State} {c : Cause} (h : s.fetch = .error c) : s.runCycle = .next (s.raise 0 c) := by
  simp only [State.runCycle, h]

/-- The lowest offending address of a fetch at 4095 or above, as `diag.info` records it (20_memory.md R56). -/
theorem lowest_offending_fetch_address {pc : Word} (h : 4095 ≤ pc.toNat) :
    BitVec.ofNat 16 (max pc.toNat 4096) = if pc.toNat = 4095 then 4096 else pc := by
  split
  case isTrue hlast => rw [hlast]; rfl
  case isFalse hlast => rw [Nat.max_eq_left (by omega), BitVec.ofNat_toNat, BitVec.setWidth_eq]

/-- Settles O14: out of range the fetch itself is the fault, taken with the word 0. -/
theorem fetchOutOfRangeStopsTheMachine : Obligations.FetchOutOfRangeStopsTheMachine := by
  refine ⟨fun _ _ => fetch_eq_ok_iff, fun s u hrun hnext hpc => ?_⟩
  have hstep := step_eq_runCycle hrun hnext
  obtain ⟨turns, beyond, rfl⟩ := eq_withSchedule_of_nextTurn hnext
  have hfault := runCycle_of_fetch_error (fetch_error (s := s.withSchedule turns beyond) hpc)
  rw [← lowest_offending_fetch_address hpc]
  exact ⟨_, hstep.trans hfault, rfl, rfl, rfl, raise_result nofun, raise_keeps _ _ _⟩

/-! ### A store into the next instruction -/

/-- What a register-dump stores: each register of its range at its own offset from `I` (44_index_memory.md R164). -/
theorem read_effect_registerDump {s : State} {x k : Reg} (hm : s.mem.wf = true) (hc : (Instr.registerDump x).cause s = none)
    (hk : k ≤ x) : ((Instr.registerDump x).effect s).mem.read (s.index + k.val) = s.reg k := by
  have hrange : s.index + (s.regBytes x).length ≤ 4096 := by rw [regBytes_length]; exact index_le_of_registerDump hc
  simp only [Instr.effect, advance_mem, storeBytes_mem]
  rw [Memory.read_writeBytes hm (.inr hrange), if_pos (Nat.le_add_right _ _), Nat.add_sub_cancel_left, regBytes_get s hk,
    Option.getD_some]

/-- Settles O40: the next fetch reads the first two bytes of the dump, which hold `V[0]` and `V[1]`. -/
theorem dumpedBytesAreTheNextWordFetched : Obligations.DumpedBytesAreTheNextWordFetched := by
  intro s x hm hx hindex hrange
  have hc : (Instr.registerDump x).cause s = none := ite_some_none_eq_none.2 (Nat.not_lt.2 hrange)
  have hpc : ((Instr.registerDump x).effect s).pc.toNat = s.index := by
    have hadd : (s.pc + 2).toNat = (s.pc.toNat + 2) % 65536 := BitVec.toNat_add ..
    exact hadd.trans (by omega)
  refine ⟨_, exec_of_no_cause hc, by omega, ?_⟩
  have hfirst := read_effect_registerDump hm hc (k := 0) (Fin.zero_le x)
  have hsecond := read_effect_registerDump hm hc (k := 1) hx
  rw [hpc, ← hfirst, ← hsecond]
  rfl

end Sys2Proof.Machine
end

section
/-! The encoding: every well-formed instruction comes back from its bytes, and a word decodes by its examined bits alone. -/

namespace Sys2Proof

open Machine

/-! ### From an instruction to its bytes and back -/

/-- The laws of `Laws.RoundTrip` put together: every canonical word is read back (30_encoding.md R75). -/
theorem decodeWord_encode : ∀ {i : Instr}, i.wellFormed = true → decodeWord (encode i) = .ok i
  | .clearScreen => Laws.RoundTrip.clearScreen
  | .ret => Laws.RoundTrip.ret
  | .callLegacy nnn => Laws.RoundTrip.callLegacy nnn
  | .jump nnn => Laws.RoundTrip.jump nnn
  | .call nnn => Laws.RoundTrip.call nnn
  | .skipIfEqualImmediate x nn => Laws.RoundTrip.skipIfEqualImmediate x nn
  | .skipIfNotEqualImmediate x nn => Laws.RoundTrip.skipIfNotEqualImmediate x nn
  | .skipIfRegistersEqual x y => Laws.RoundTrip.skipIfRegistersEqual x y
  | .setImmediate x nn => Laws.RoundTrip.setImmediate x nn
  | .addImmediate x nn => Laws.RoundTrip.addImmediate x nn
  | .setRegister x y => Laws.RoundTrip.setRegister x y
  | .orRegisters x y => Laws.RoundTrip.orRegisters x y
  | .andRegisters x y => Laws.RoundTrip.andRegisters x y
  | .xorRegisters x y => Laws.RoundTrip.xorRegisters x y
  | .addRegisters x y => Laws.RoundTrip.addRegisters x y
  | .subRegisters x y => Laws.RoundTrip.subRegisters x y
  | .shiftRight x => Laws.RoundTrip.shiftRight x
  | .subRegistersReversed x y => Laws.RoundTrip.subRegistersReversed x y
  | .shiftLeft x => Laws.RoundTrip.shiftLeft x
  | .skipIfRegistersNotEqual x y => Laws.RoundTrip.skipIfRegistersNotEqual x y
  | .setIndex nnn => Laws.RoundTrip.setIndex nnn
  | .jumpWithOffset nnn => Laws.RoundTrip.jumpWithOffset nnn
  | .randomAnd x nn => Laws.RoundTrip.randomAnd x nn
  | .drawSprite x y n => Laws.RoundTrip.drawSprite x y n
  | .skipIfKeyPressed x => Laws.RoundTrip.skipIfKeyPressed x
  | .skipIfKeyNotPressed x => Laws.RoundTrip.skipIfKeyNotPressed x
  | .readDelayTimer x => Laws.RoundTrip.readDelayTimer x
  | .waitForKey x => Laws.RoundTrip.waitForKey x
  | .setDelayTimer x => Laws.RoundTrip.setDelayTimer x
  | .setSoundTimer x => Laws.RoundTrip.setSoundTimer x
  | .addToIndex x => Laws.RoundTrip.addToIndex x
  | .setIndexToSpriteChar x => Laws.RoundTrip.setIndexToSpriteChar x
  | .storeBcd x => Laws.RoundTrip.storeBcd x
  | .registerDump x => Laws.RoundTrip.registerDump x
  | .registerLoad x => Laws.RoundTrip.registerLoad x

/-- The decoder on bytes is the decoder on words, the high byte first (20_memory.md R52). -/
theorem decode_high_low {w : Word} {i : Instr} (h : decodeWord w = .ok i) (rest : List Byte) :
    decode (highByte w :: lowByte w :: rest) = .ok (i, rest) := by
  simp only [decode, wordOfBytes_high_low, h]

/-- Settles O1, from the round trip through the word and the one through the two bytes. -/
theorem decodeOfEncodeGivesBackTheInstruction : Obligations.DecodeOfEncodeGivesBackTheInstruction :=
  fun _ rest hwf => decode_high_low (decodeWord_encode hwf) rest

/-! ### Masked words as numbers -/

/-- Every mask of the model keeps the bits from `k` up and those below `j`. -/
theorem toNat_and_mask (w : Word) {m : Word} {j k : Nat} (hm : m = BitVec.allOnes 16 <<< k ||| BitVec.ofNat 16 (2 ^ j - 1))
    (hjk : j ≤ k) (hk : k ≤ 16) : (w &&& m).toNat = w.toNat / 2 ^ k * 2 ^ k + w.toNat % 2 ^ j := by
  have hhigh : (w &&& BitVec.allOnes 16 <<< k).toNat = w.toNat / 2 ^ k * 2 ^ k := by
    rw [← BitVec.shiftLeft_ushiftRight, BitVec.toNat_shiftLeft, BitVec.toNat_ushiftRight, Nat.shiftRight_eq_div_pow,
      Nat.shiftLeft_eq]
    exact Nat.mod_eq_of_lt ((Nat.div_mul_le_self _ _).trans_lt w.isLt)
  have hlow : (w &&& BitVec.ofNat 16 (2 ^ j - 1)).toNat = w.toNat % 2 ^ j := by
    have hj : 2 ^ j ≤ 2 ^ 16 := Nat.pow_le_pow_right (by decide) (hjk.trans hk)
    rw [BitVec.toNat_and, BitVec.toNat_ofNat, Nat.mod_eq_of_lt (by omega), Nat.and_two_pow_sub_one_eq_mod]
  have hlt : w.toNat % 2 ^ j < 2 ^ k :=
    (Nat.mod_lt _ (Nat.two_pow_pos j)).trans_le (Nat.pow_le_pow_right (by decide) hjk)
  rw [hm, BitVec.and_or_distrib_left, BitVec.toNat_or, hhigh, hlow, ← Nat.shiftLeft_eq, Nat.shiftLeft_add_eq_or_of_lt hlt]

theorem toNat_and_F000 (w : Word) : (w &&& 0xF000#16).toNat = w.toNat / 4096 * 4096 := by
  rw [toNat_and_mask w (j := 0) (k := 12) (by decide) (by decide) (by decide)]; omega

theorem toNat_and_F00F (w : Word) : (w &&& 0xF00F#16).toNat = w.toNat / 4096 * 4096 + w.toNat % 16 :=
  toNat_and_mask w (j := 4) (k := 12) (by decide) (by decide) (by decide)

theorem toNat_and_F0FF (w : Word) : (w &&& 0xF0FF#16).toNat = w.toNat / 4096 * 4096 + w.toNat % 256 :=
  toNat_and_mask w (j := 8) (k := 12) (by decide) (by decide) (by decide)

theorem toNat_and_FF0F (w : Word) : (w &&& 0xFF0F#16).toNat = w.toNat / 256 * 256 + w.toNat % 16 :=
  toNat_and_mask w (j := 4) (k := 8) (by decide) (by decide) (by decide)

theorem toNat_and_FFF0 (w : Word) : (w &&& 0xFFF0#16).toNat = w.toNat / 16 * 16 := by
  rw [toNat_and_mask w (j := 0) (k := 4) (by decide) (by decide) (by decide)]; omega

/-! ### The bits a word is decoded by -/

/-- The bits of `5XY-` and `9XY-` that are examined (30_encoding.md R78). -/
theorem and_FFF0_eq_packXYN_iff {w : Word} {c : Nat} (hc : c < 16) (x y : Reg) :
    w &&& 0xFFF0#16 = packXYN c x y 0 ↔ opClass w = c ∧ fieldX w = x ∧ fieldY w = y := by
  have := x.isLt
  have := y.isLt
  rw [← BitVec.toNat_inj, toNat_and_FFF0, packXYN_toNat hc (by decide), opClass_eq, Fin.ext_iff, Fin.ext_iff, fieldX_val,
    fieldY_val]
  omega

/-- The bits of `8X-6` and `8X-E` that are examined (30_encoding.md R78). -/
theorem and_FF0F_eq_packXYN_iff {w : Word} {c n : Nat} (hc : c < 16) (hn : n < 16) (x : Reg) :
    w &&& 0xFF0F#16 = packXYN c x 0 n ↔ opClass w = c ∧ fieldX w = x ∧ (fieldN w).val = n := by
  have := x.isLt
  rw [← BitVec.toNat_inj, toNat_and_FF0F, packXYN_toNat hc hn, opClass_eq, Fin.ext_iff, fieldX_val, fieldN_val, Fin.val_zero]
  omega

theorem and_FFFF (w : Word) : w &&& 0xFFFF#16 = w := BitVec.and_allOnes

theorem examined_decodeClass0 (w : Word) : (decodeClass0 w).examined = 0xFFFF#16 := by
  unfold decodeClass0
  split
  case isTrue => rfl
  case isFalse => split <;> rfl

theorem examined_of_decodeClass14 {w : Word} {i : Instr} (hd : decodeClass14 w = .ok i) : i.examined = 0xFFFF#16 := by
  unfold decodeClass14 at hd
  split at hd <;> cases hd <;> rfl

theorem examined_of_decodeClass15 {w : Word} {i : Instr} (hd : decodeClass15 w = .ok i) : i.examined = 0xFFFF#16 := by
  unfold decodeClass15 at hd
  split at hd <;> cases hd <;> rfl

theorem and_examined_of_decodeClass8 {w : Word} {i : Instr} (hc : opClass w = 8) (hd : decodeClass8 w = .ok i) :
    w &&& i.examined = encode i := by
  unfold decodeClass8 at hd
  split at hd <;> cases hd
  case h_7 hn | h_9 hn => exact (and_FF0F_eq_packXYN_iff (by decide) (by decide) _).2 ⟨hc, rfl, hn⟩
  all_goals exact (and_FFFF w).trans (packXYN_fields hc ‹_›).symm

/-- A decoded word is the canonical word but for the nibbles that are not examined (30_encoding.md R78). Where all are, that is
`encode_of_decodeWord`. -/
theorem and_examined_of_decodeWord {w : Word} {i : Instr} (hd : decodeWord w = .ok i) : w &&& i.examined = encode i := by
  have hfull (hx : i.examined = 0xFFFF#16) : w &&& i.examined = encode i := by
    rw [hx, and_FFFF, encode_of_decodeWord hd hx]
  unfold decodeWord at hd
  split at hd
  case h_6 hc | h_10 hc => cases hd; exact (and_FFF0_eq_packXYN_iff (by decide) _ _).2 ⟨hc, rfl, rfl⟩
  case h_9 hc => exact and_examined_of_decodeClass8 hc hd
  case h_1 => cases hd; exact hfull (examined_decodeClass0 w)
  case h_15 => exact hfull (examined_of_decodeClass14 hd)
  case h_16 => exact hfull (examined_of_decodeClass15 hd)
  all_goals cases hd; exact hfull rfl

/-- No word decodes to a call-legacy term for the words of clear-screen and return (30_encoding.md R77). -/
theorem wellFormed_of_decodeWord {w : Word} {i : Instr} (hd : decodeWord w = .ok i) : i.wellFormed = true := by
  cases i with
  | callLegacy nnn =>
    obtain rfl := encode_of_decodeWord hd rfl
    simp only [Instr.wellFormed, legacyTarget, Bool.and_eq_true, bne_iff_ne]
    constructor
    · rintro rfl; exact absurd hd (by decide)
    · rintro rfl; exact absurd hd (by decide)
  | _ => rfl

/-- The nibbles that are not examined have no part in the decoding (30_encoding.md R78). -/
theorem decodeWord_of_and_examined {w : Word} {i : Instr} (hwf : i.wellFormed = true) (h : w &&& i.examined = encode i) :
    decodeWord w = .ok i := by
  cases i with
  | skipIfRegistersEqual x y | skipIfRegistersNotEqual x y =>
    obtain ⟨hc, rfl, rfl⟩ := (and_FFF0_eq_packXYN_iff (by decide) x y).1 h
    simp only [decodeWord, hc]
  | shiftRight x | shiftLeft x =>
    obtain ⟨hc, rfl, hn⟩ := (and_FF0F_eq_packXYN_iff (by decide) (by decide) x).1 h
    simp only [decodeWord, hc, decodeClass8, hn]
  | _ =>
    obtain rfl := (and_FFFF w).symm.trans h
    exact decodeWord_encode hwf

/-- Settles O2: both directions of R78, the well-formedness from R77. -/
theorem wordDecodesExactlyToWhatItsExaminedBitsSay : Obligations.WordDecodesExactlyToWhatItsExaminedBitsSay :=
  fun _ _ => ⟨fun hd => ⟨wellFormed_of_decodeWord hd, and_examined_of_decodeWord hd⟩,
    fun ⟨hwf, h⟩ => decodeWord_of_and_examined hwf h⟩

/-! ### The rows of the opcode table -/

/-- The selecting bits are among the examined ones (30_encoding.md R79). -/
theorem examined_and_tableMask (i : Instr) : i.examined &&& i.tableMask = i.tableMask := by
  cases i with
  | skipIfRegistersEqual | skipIfRegistersNotEqual => change 0xFFF0#16 &&& 0xF000#16 = 0xF000#16; decide
  | shiftRight | shiftLeft => change 0xFF0F#16 &&& 0xF00F#16 = 0xF00F#16; decide
  | _ => exact BitVec.allOnes_and

theorem and_F000 (w : Word) : w &&& 0xF000#16 = ofNibbles (opClass w) 0 0 0 := by
  rw [← BitVec.toNat_inj, toNat_and_F000, ofNibbles, BitVec.toNat_ofNat, opClass_eq]
  omega

theorem and_F00F (w : Word) : w &&& 0xF00F#16 = ofNibbles (opClass w) 0 0 (fieldN w).val := by
  rw [← BitVec.toNat_inj, toNat_and_F00F, ofNibbles, BitVec.toNat_ofNat, opClass_eq, fieldN_val]
  omega

theorem and_F0FF (w : Word) : w &&& 0xF0FF#16 = packXNN (opClass w) 0 (fieldNN w) := by
  rw [← BitVec.toNat_inj, toNat_and_F0FF, packXNN_toNat (opClass_lt w), opClass_eq, fieldNN_toNat, Fin.val_zero]
  omega

/-- The canonical word lies in the instruction's row: each row's mask keeps the class and the field that selects in it. -/
theorem encode_and_tableMask (i : Instr) : encode i &&& i.tableMask = i.tableMatch := by
  cases i with
  | clearScreen | ret => rfl
  | callLegacy | jump | call | setIndex | jumpWithOffset =>
    simp only [encode, Instr.tableMask, and_F000, opClass_packNNN, Nat.reduceLT]
    rfl
  | skipIfEqualImmediate | skipIfNotEqualImmediate | setImmediate | addImmediate | randomAnd =>
    simp only [encode, Instr.tableMask, and_F000, opClass_packXNN, Nat.reduceLT]
    rfl
  | skipIfRegistersEqual | skipIfRegistersNotEqual | drawSprite =>
    simp only [encode, Instr.tableMask, and_F000, opClass_packXYN, Fin.isLt, Nat.reduceLT]
    rfl
  | setRegister | orRegisters | andRegisters | xorRegisters | addRegisters | subRegisters | shiftRight | subRegistersReversed
  | shiftLeft =>
    simp only [encode, Instr.tableMask, and_F00F, opClass_packXYN, fieldN_packXYN, Nat.reduceLT]
    rfl
  | _ =>
    simp only [encode, Instr.tableMask, and_F0FF, opClass_packXNN, fieldNN_packXNN, Nat.reduceLT]
    rfl

/-- Settles O3: the word agrees with the canonical word on the examined bits, so on the selecting ones. -/
theorem decodedWordLiesInItsOpcodeTableRow : Obligations.DecodedWordLiesInItsOpcodeTableRow := by
  intro w i hd
  calc w &&& i.tableMask
    _ = w &&& i.examined &&& i.tableMask := by rw [BitVec.and_assoc, examined_and_tableMask]
    _ = encode i &&& i.tableMask := by rw [and_examined_of_decodeWord hd]
    _ = i.tableMatch := encode_and_tableMask i

/-! ### The words that select no instruction -/

theorem decodeClass8_ne_ok_iff {w : Word} : (∀ i, decodeClass8 w ≠ .ok i) ↔
    (8 ≤ (fieldN w).val ∧ (fieldN w).val ≤ 13) ∨ (fieldN w).val = 15 := by
  have hlt := (fieldN w).isLt
  unfold decodeClass8
  split
  case h_10 => exact iff_of_true nofun (by simp only [imp_false] at *; omega)
  all_goals exact iff_of_false (fun h => h _ rfl) (by omega)

theorem decodeClass14_ne_ok_iff {w : Word} : (∀ i, decodeClass14 w ≠ .ok i) ↔ fieldNN w ≠ 0x9E#8 ∧ fieldNN w ≠ 0xA1#8 := by
  simp only [ne_eq, ← BitVec.toNat_inj (x := fieldNN w)]
  unfold decodeClass14
  split
  case h_3 h9E hA1 => exact iff_of_true nofun ⟨h9E, hA1⟩
  all_goals exact iff_of_false (fun h => h _ rfl) (by simp [*])

theorem decodeClass15_ne_ok_iff {w : Word} : (∀ i, decodeClass15 w ≠ .ok i) ↔
    fieldNN w ∉ [0x07#8, 0x0A#8, 0x15#8, 0x18#8, 0x1E#8, 0x29#8, 0x33#8, 0x55#8, 0x65#8] := by
  simp only [List.mem_cons, List.not_mem_nil, or_false, ← BitVec.toNat_inj (x := fieldNN w), BitVec.reduceToNat]
  unfold decodeClass15
  split
  case h_10 => exact iff_of_true nofun (by simp only [imp_false] at *; omega)
  all_goals exact iff_of_false (fun h => h _ rfl) (by omega)

/-- Settles O4: class by class, where only 8, 14 and 15 have words that are not listed. -/
theorem unsupportedWordsAreThoseOfThreeClasses : Obligations.UnsupportedWordsAreThoseOfThreeClasses := by
  intro w
  unfold decodeWord
  split
  case h_9 hc => simp [hc, decodeClass8_ne_ok_iff]
  case h_15 hc => simp [hc, decodeClass14_ne_ok_iff]
  case h_16 =>
    have hlt := opClass_lt w
    have hc : opClass w = 15 := by simp only [imp_false] at *; omega
    simp [hc, decodeClass15_ne_ok_iff]
  all_goals exact iff_of_false (fun h => h _ rfl) (by simp [*])

/-! ### Samples -/

/-- Settles O5: the decoder runs on the ten words. -/
theorem sampleWordsDecodeAsTheSpecSays : Obligations.SampleWordsDecodeAsTheSpecSays := by
  unfold Obligations.SampleWordsDecodeAsTheSpecSays
  decide

end Sys2Proof
end

section
/-! One step, turn by turn: what it is for each kind of turn, that it always has a next state, and what holds of a run because
every step keeps it. -/

namespace Sys2Proof.Machine

/-! ### The step by the turn that comes next -/

theorem step_eq_cycle {s u : State} (hnext : s.nextTurn = (.core, u)) : step s = u.cycle := by
  simp only [step, State.takeTurn, hnext]

theorem step_eq_tick {s u : State} (hnext : s.nextTurn = (.tick, u)) : step s = .next u.tick := by
  simp only [step, State.takeTurn, hnext]

theorem step_eq_setKeys {s u : State} {ks : Vector Bool 16} (hnext : s.nextTurn = (.keys ks, u)) :
    step s = .next (u.setKeys ks) := by
  simp only [step, State.takeTurn, hnext]

/-- The state left by taking a turn off is the one before, its schedule apart. -/
theorem nextTurn_changes_schedule_only {s u : State} {turn : Turn} (hnext : s.nextTurn = (turn, u)) :
    u = { s with turns := u.turns, beyond := u.beyond } := by
  obtain ⟨turns, beyond, rfl⟩ := eq_withSchedule_of_nextTurn hnext
  rfl

/-- With the core alone every turn is the core's and the schedule stays as it is. -/
theorem nextTurn_of_coreAlone {s : State} (h : s.coreAlone) : s.nextTurn = (.core, s) := by
  obtain ⟨hturns, hbeyond⟩ := h
  rw [nextTurn_core (b := s.beyond) hturns (by rw [hbeyond, split_always])]

/-! ### Every step has a next state -/

/-- An instruction takes its fault or has its effect; either is a next state (60_exceptions.md R212). -/
theorem exists_exec_next (i : Instr) (s : State) : ∃ t, exec i s = .next t := by
  cases hc : i.cause s with
  | none => exact ⟨_, exec_of_no_cause hc⟩
  | some c => exact ⟨_, exec_of_cause hc⟩

theorem exists_runCycle_next (s : State) : ∃ t, s.runCycle = .next t := by
  unfold State.runCycle
  split
  case h_1 c _ => exact ⟨_, rfl⟩
  case h_2 w _ =>
    split
    case h_1 => exact ⟨_, rfl⟩
    case h_2 i _ => exact exists_exec_next i s

theorem exists_cycle_next (s : State) : ∃ t, s.cycle = .next t := by
  unfold State.cycle
  split
  case h_1 => exact ⟨_, rfl⟩
  case h_2 => exact ⟨_, rfl⟩
  case h_3 => exact exists_runCycle_next s

/-- Settles O21: the turn is the core's, a tick or the key source's, and each of them has a next state. -/
theorem everyStepHasANextState : Obligations.EveryStepHasANextState := by
  intro s
  rcases hnext : s.nextTurn with ⟨_ | _ | ks, u⟩
  case core => rw [step_eq_cycle hnext]; exact exists_cycle_next u
  case tick => exact ⟨_, step_eq_tick hnext⟩
  case keys => exact ⟨_, step_eq_setKeys hnext⟩

/-! ### Runs -/

theorem run_succ {s t : State} (n : Nat) (h : step s = .next t) :
    Host.Core.run core (n + 1) s = Host.Core.run core n t := by
  have hcore : core.step s = .next t := h
  simp only [Host.Core.run, hcore]

/-- Every run of a given number of steps ends in a state, and keeps what every step keeps. -/
theorem run_induction {P : State → Prop} (hstep : ∀ {s t}, P s → step s = .next t → P t) (n : Nat) {s : State} (hs : P s) :
    ∃ t, Host.Core.run core n s = .next t ∧ P t := by
  induction n generalizing s with
  | zero => exact ⟨s, rfl, hs⟩
  | succ n ih =>
    obtain ⟨u, hu⟩ := everyStepHasANextState s
    rw [run_succ n hu]
    exact ih (hstep hs hu)

theorem run_of_step_self {s : State} (h : step s = .next s) (n : Nat) : Host.Core.run core n s = .next s := by
  induction n with
  | zero => rfl
  | succ n ih => rw [run_succ n h, ih]

end Sys2Proof.Machine
end

section
/-! The core's turn: a running machine runs the instruction at `pc`, a waiting one polls the keys, a stopped one stays. -/

namespace Sys2Proof.Machine

/-! ### Results of a cycle (40_cycle.md R104) -/

theorem result_of_running {s : State} (h : s.run = .running) : s.result = .completed := by
  simp only [State.result, h]

theorem result_of_awaitingKey {s : State} (h : s.run = .awaitingKey) : s.result = .notYetComplete := by
  simp only [State.result, h]

/-! ### A running machine -/

theorem step_of_runsNext {s u : State} {i : Instr} (h : s.runsNext i u) : step s = exec i u := by
  obtain ⟨hrun, hnext, w, hw, hd⟩ := h
  exact step_eq_exec hrun hnext hw hd

/-- Settles O13. -/
theorem stepRunsTheDecodedInstruction : Obligations.StepRunsTheDecodedInstruction :=
  ⟨fun _ _ _ h => step_of_runsNext h, fun _ _ hnext => nextTurn_changes_schedule_only hnext,
    fun _ _ _ hrun halone hw hd => step_eq_exec hrun (nextTurn_of_coreAlone halone) hw hd⟩

/-- Settles O53: the machine runs on unless the instruction is a wait-for-key that finds no key. -/
theorem cycleWithoutFaultCompletesOrWaits : Obligations.CycleWithoutFaultCompletesOrWaits := by
  intro s u i hruns hc
  have hstep := step_of_runsNext hruns
  obtain ⟨hrun, hnext, -⟩ := hruns
  obtain ⟨turns, beyond, rfl⟩ := eq_withSchedule_of_nextTurn hnext
  have hcu := (cause_withSchedule i s turns beyond).trans hc
  refine ⟨_, hstep.trans (exec_of_no_cause hcu), ?_⟩
  rcases effect_run i (s.withSchedule turns beyond) with hsame | ⟨x, rfl, -⟩
  · exact .inl (result_of_running (hsame.trans hrun))
  · rcases effect_waitForKey (s.withSchedule turns beyond) x with ⟨hkey, heff⟩ | ⟨k, -, heff⟩ <;> rw [heff]
    · exact .inr ⟨rfl, rfl, x, rfl, hkey⟩
    · exact .inl (result_of_running hrun)

theorem skipWhen_pc_cases (s : State) (c : Bool) : (s.skipWhen c).pc = s.pc + 2 ∨ (s.skipWhen c).pc = s.pc + 4 := by
  cases c
  · exact .inl rfl
  · exact .inr rfl

/-- Settles O51: the skips move `pc` by 2 or 4, the transfers are named, the others advance, a wait-for-key when it finds a
key. -/
theorem pcMovesByTwoFourOrATransfer : Obligations.PcMovesByTwoFourOrATransfer := by
  intro i s t hrun h hc hrun'
  rw [exec_of_no_cause hc] at h
  obtain rfl := Host.Outcome.next.inj h
  have hskip {p q : Prop} (c : Bool) (hp : p) :
      (s.skipWhen c).pc = s.pc + 2 ∨ ((s.skipWhen c).pc = s.pc + 4 ∧ p) ∨ q :=
    (skipWhen_pc_cases s c).imp_right fun hfour => .inl ⟨hfour, hp⟩
  cases i with
  | ret => exact .inr (.inr (.inl rfl))
  | jump nnn => exact .inr (.inr (.inr ⟨nnn, .inl rfl⟩))
  | call nnn => exact .inr (.inr (.inr ⟨nnn, .inr (.inl rfl)⟩))
  | jumpWithOffset nnn => exact .inr (.inr (.inr ⟨nnn, .inr (.inr rfl)⟩))
  | skipIfEqualImmediate x nn => exact hskip _ (.inl ⟨x, nn, .inl rfl⟩)
  | skipIfNotEqualImmediate x nn => exact hskip _ (.inl ⟨x, nn, .inr rfl⟩)
  | skipIfRegistersEqual x y => exact hskip _ (.inr (.inl ⟨x, y, .inl rfl⟩))
  | skipIfRegistersNotEqual x y => exact hskip _ (.inr (.inl ⟨x, y, .inr rfl⟩))
  | skipIfKeyPressed x => exact hskip _ (.inr (.inr ⟨x, .inl rfl⟩))
  | skipIfKeyNotPressed x => exact hskip _ (.inr (.inr ⟨x, .inr rfl⟩))
  | waitForKey x =>
    rcases effect_waitForKey s x with ⟨-, heff⟩ | ⟨k, -, heff⟩
    · rw [heff] at hrun'
      nomatch hrun'
    · rw [heff]
      exact .inl rfl
  | _ => exact .inl rfl

/-! ### A waiting machine -/

/-- The core's turn of a machine that awaits a key is a poll, under the schedule that remains. -/
theorem step_eq_pollKey {s u : State} (hrun : s.run = .awaitingKey) (hnext : s.nextTurn = (.core, u)) :
    step s = .next u.pollKey := by
  rw [step_eq_cycle hnext]
  obtain ⟨turns, beyond, rfl⟩ := eq_withSchedule_of_nextTurn hnext
  have hrun' : (s.withSchedule turns beyond).run = .awaitingKey := hrun
  simp only [State.cycle, hrun']

/-- Settles O17: the poll finds no key and changes nothing, or it completes the wait-for-key. -/
theorem waitingMachinePollsTheKeys : Obligations.WaitingMachinePollsTheKeys := by
  intro s u hrun hnext
  have hstep := step_eq_pollKey hrun hnext
  have hsched := nextTurn_changes_schedule_only hnext
  obtain ⟨turns, beyond, rfl⟩ := eq_withSchedule_of_nextTurn hnext
  rcases pollKey_cases (s.withSchedule turns beyond) with ⟨hnone, hpoll⟩ | ⟨k, hk, hpoll⟩ <;> rw [hpoll] at hstep
  · exact ⟨fun _ => ⟨hstep, rfl, result_of_awaitingKey hrun, hsched⟩, fun hkey => absurd hnone hkey⟩
  · refine ⟨fun hnone => Bool.noConfusion ((hnone k).symm.trans hk), fun _ => ⟨_, k, hstep, hk, ?_, rfl, rfl, rfl, ?_⟩⟩
    · exact (reg_setReg s s.waitX s.waitX _).trans (if_pos rfl)
    · exact { keeps_setReg_draws (s.withSchedule turns beyond) s.waitX (BitVec.ofNat 8 k.val) (s.draws + 1) with run := nofun }

/-! ### A stopped machine -/

/-- The same machine with the places the agents outside the core move, and another schedule. -/
def State.withOutside (s : State) (dt st : Byte) (keys : Vector Bool 16) (turns : List Turn) (beyond : Beyond) : State :=
  { s with dt := dt, st := st, keys := keys, turns := turns, beyond := beyond }

/-- `t` is the machine `s` but for the timers, the keys and the schedule. -/
def State.AgreesInside (s t : State) : Prop := ∃ dt st keys turns beyond, t = s.withOutside dt st keys turns beyond

/-- A cycle of a stopped machine leaves it as it is, and the outside agents move only what is theirs (40_cycle.md R101). -/
theorem agreesInside_step {s t t' : State} (hrun : s.run = .stopped) (h : s.AgreesInside t) (hstep : step t = .next t') :
    s.AgreesInside t' := by
  refine step_induction (P := s.AgreesInside) h ?schedule ?cycle ?tick ?keys hstep
  case schedule =>
    rintro _ turns beyond ⟨dt, st, keys, _, _, rfl⟩
    exact ⟨dt, st, keys, turns, beyond, rfl⟩
  case cycle =>
    rintro _ _ ⟨dt, st, keys, turns, beyond, rfl⟩ hcycle
    have hstopped : (s.withOutside dt st keys turns beyond).run = .stopped := hrun
    cases hcycle with
    | stays => exact ⟨dt, st, keys, turns, beyond, rfl⟩
    | polls hrun' | raises hrun' | completes hrun' => nomatch hstopped.symm.trans hrun'
  case tick =>
    rintro _ ⟨dt, st, keys, turns, beyond, rfl⟩
    exact ⟨countDown dt, countDown st, keys, turns, beyond, rfl⟩
  case keys =>
    rintro _ keys ⟨dt, st, _, turns, beyond, rfl⟩
    exact ⟨dt, st, keys, turns, beyond, rfl⟩

theorem step_of_stopped_of_coreAlone {s : State} (hrun : s.run = .stopped) (halone : s.coreAlone) : step s = .next s := by
  rw [step_eq_cycle (nextTurn_of_coreAlone halone)]
  simp only [State.cycle, hrun]

/-- Settles O16: with the core alone every step is the same state again; in every schedule each step keeps all but the timers,
the keys and the schedule. -/
theorem stoppedMachineStaysStopped : Obligations.StoppedMachineStaysStopped := by
  intro n s hrun
  refine ⟨fun halone => run_of_step_self (step_of_stopped_of_coreAlone hrun halone) n, ?_⟩
  have hself : s.AgreesInside s := ⟨s.dt, s.st, s.keys, s.turns, s.beyond, rfl⟩
  obtain ⟨t, hn, dt, st, keys, turns, beyond, rfl⟩ := run_induction (agreesInside_step hrun) n hself
  exact ⟨_, hn, hrun, rfl, rfl, rfl, rfl, rfl, rfl, rfl, rfl, rfl, rfl⟩

end Sys2Proof.Machine
end

section
/-! The turns of the agents outside the core: the tick and the key source's move. -/

namespace Sys2Proof.Machine

theorem countDown_toNat (b : Byte) : (countDown b).toNat = b.toNat - 1 := by
  unfold countDown
  split
  case isTrue h0 => rw [h0]; rfl
  case isFalse h0 => bv_omega

theorem keeps_tick (s : State) : Keeps { dt := true, st := true } s s.tick :=
  { keeps_setPc s s.pc with dt := nofun, st := nofun }

/-- Settles O19. -/
theorem tickLowersBothTimers : Obligations.TickLowersBothTimers := by
  intro s u hnext
  have hstep := step_eq_tick hnext
  have hsched := nextTurn_changes_schedule_only hnext
  obtain ⟨turns, beyond, rfl⟩ := eq_withSchedule_of_nextTurn hnext
  exact ⟨_, hstep, countDown_toNat s.dt, countDown_toNat s.st, rfl, keeps_tick _, hsched⟩

/-- Settles O20. -/
theorem keySourceSetsOnlyTheKeys : Obligations.KeySourceSetsOnlyTheKeys := by
  intro s u ks hnext
  have hstep := step_eq_setKeys hnext
  have hsched := nextTurn_changes_schedule_only hnext
  obtain ⟨turns, beyond, rfl⟩ := eq_withSchedule_of_nextTurn hnext
  exact ⟨_, hstep, fun _ => rfl, rfl, keeps_setPc _ s.pc, hsched⟩

end Sys2Proof.Machine
end

section
/-! The schedule: listed turns come next and in order, then block after block, the core's cycle after each. -/

namespace Sys2Proof.Machine

theorem upcoming_succ {s u : State} {turn : Turn} (h : s.nextTurn = (turn, u)) (n : Nat) :
    s.upcoming (n + 1) = turn :: u.upcoming n := by
  rw [State.upcoming, h]

/-- Listed turns come in order, then what the schedule without them gives. -/
theorem upcoming_listed (s : State) (ts rest : List Turn) (b : Beyond) (n : Nat) :
    (s.withSchedule (ts ++ rest) b).upcoming (n + ts.length) = ts ++ (s.withSchedule rest b).upcoming n := by
  induction ts with
  | nil => rfl
  | cons turn ts ih =>
    have hnext : (s.withSchedule (turn :: (ts ++ rest)) b).nextTurn = (turn, s.withSchedule (ts ++ rest) b) :=
      nextTurn_listed rfl
    rw [List.cons_append, List.length_cons, ← Nat.add_assoc, upcoming_succ hnext, ih, List.cons_append]

/-- With no turn listed the next block comes, the core's cycle after it, and then what the schedule beyond gives. -/
theorem upcoming_block (s : State) {block : List Turn} {b b' : Beyond} (hsplit : b.split = (block, b')) (n : Nat) :
    (s.withSchedule [] b).upcoming (n + (block.length + 1)) = (block ++ [Turn.core]) ++ (s.withSchedule [] b').upcoming n := by
  cases block with
  | nil =>
    have hnext : (s.withSchedule [] b).nextTurn = (.core, s.withSchedule [] b') := nextTurn_core rfl hsplit
    exact upcoming_succ hnext n
  | cons turn rest =>
    have hnext : (s.withSchedule [] b).nextTurn = (turn, s.withSchedule (rest ++ [.core]) b') := nextTurn_block rfl hsplit
    have hlisted := upcoming_listed s (rest ++ [.core]) [] b' n
    rw [List.append_nil, List.length_append] at hlisted
    exact (upcoming_succ hnext _).trans (congrArg _ hlisted)

/-- A block that stands before every cycle comes so for ever. -/
theorem upcoming_always (s : State) (block : List Turn) (m : Nat) :
    (s.withSchedule [] (.always block)).upcoming (m * (block.length + 1)) =
      (List.replicate m (block ++ [Turn.core])).flatten := by
  induction m with
  | zero => rw [Nat.zero_mul]; rfl
  | succ m ih => rw [Nat.succ_mul, upcoming_block s (split_always block), ih, List.replicate_succ, List.flatten_cons]

/-- After the listed turns and the block that follows them the core has its cycle. -/
theorem exists_upcoming_core (s : State) : ∃ n, (s.upcoming (n + 1))[n]? = some .core := by
  obtain ⟨block, b, hsplit⟩ : ∃ block b, s.beyond.split = (block, b) := ⟨_, _, rfl⟩
  refine ⟨(s.turns ++ block).length, ?_⟩
  have hcome : s.upcoming ((s.turns ++ block).length + 1) = s.turns ++ block ++ [Turn.core] :=
    calc s.upcoming ((s.turns ++ block).length + 1)
      _ = (s.withSchedule (s.turns ++ []) s.beyond).upcoming (block.length + 1 + s.turns.length) := by
        rw [List.append_nil, List.length_append, Nat.add_assoc, Nat.add_comm]; rfl
      _ = s.turns ++ (s.withSchedule [] s.beyond).upcoming (0 + (block.length + 1)) := by
        rw [upcoming_listed, Nat.zero_add]
      _ = s.turns ++ block ++ [Turn.core] := by
        rw [upcoming_block s hsplit, State.upcoming, List.append_nil, List.append_assoc]
  rw [hcome, List.getElem?_concat_length]

/-- The core has a cycle again, however many turns have gone by. -/
theorem exists_upcoming_core_after (s : State) (k : Nat) : ∃ n, k ≤ n ∧ (s.upcoming (n + 1))[n]? = some .core := by
  induction k generalizing s with
  | zero =>
    obtain ⟨n, hn⟩ := exists_upcoming_core s
    exact ⟨n, Nat.zero_le n, hn⟩
  | succ k ih =>
    obtain ⟨n, hk, hn⟩ := ih s.nextTurn.2
    exact ⟨n + 1, Nat.succ_le_succ hk, hn⟩

/-- Settles O56. -/
theorem cyclesAlternateWithTurnsWithoutEnd : Obligations.CyclesAlternateWithTurnsWithoutEnd := by
  refine ⟨fun s block m hturns hbeyond => ?_, exists_upcoming_core_after, fun s => nextTurn_changes_schedule_only rfl⟩
  have hs : s = s.withSchedule [] (.always block) := by rw [← hturns, ← hbeyond]; rfl
  rw [hs]
  exact upcoming_always s block m

/-- Settles O57: the list comes in order, with nothing asked of what stands after it. -/
theorem anyTurnsMayComeNext : Obligations.AnyTurnsMayComeNext := by
  intro s ts b
  have hlisted := upcoming_listed s ts [] b 0
  rwa [List.append_nil, Nat.zero_add, State.upcoming, List.append_nil] at hlisted

end Sys2Proof.Machine
end

section
/-! Control transfer: what a return and a call do to the call stack, with values saved and without, with room and without; the
jumps. -/

namespace Sys2Proof.Machine

/-- What two moves in a row keep, each of them keeping it. -/
theorem Keeps.trans {c : Changes} {s t u : State} (h : Keeps c s t) (h' : Keeps c t u) : Keeps c s u where
  regs r hc := (h'.regs r hc).trans (h.regs r hc)
  index hc := (h'.index hc).trans (h.index hc)
  stack hc := ⟨(h'.stack hc).1.trans (h.stack hc).1, (h'.stack hc).2.trans (h.stack hc).2⟩
  dt hc := (h'.dt hc).trans (h.dt hc)
  st hc := (h'.st hc).trans (h.st hc)
  fb hc := (h'.fb hc).trans (h.fb hc)
  mem a hc := (h'.mem a hc).trans (h.mem a hc)
  run hc := (h'.run hc).trans (h.run hc)
  waitX hc := (h'.waitX hc).trans (h.waitX hc)
  diag hc := (h'.diag hc).trans (h.diag hc)
  draws hc := (h'.draws hc).trans (h.draws hc)
  keys := h'.keys.trans h.keys
  drawEdge := h'.drawEdge.trans h.drawEdge
  turns := h'.turns.trans h.turns
  beyond := h'.beyond.trans h.beyond

/-! ### return (41_flow.md R120) -/

/-- A return with `w` saved on top pops it and goes on after the call at `w`. -/
theorem exec_ret_saved {s : State} {k : Nat} {w : Word} (hsp : s.sp.val = k + 1) (hw : s.stack[k]? = some w) :
    exec .ret s = .next (State.setPc { s with sp := ⟨k, by omega⟩ } (w + 2)) := by
  have hc : Instr.ret.cause s = none := if_neg (by omega)
  obtain ⟨hk, rfl⟩ := Vector.getElem?_eq_some_iff.1 hw
  simp only [exec_of_no_cause hc, Instr.effect, hsp, Nat.add_sub_cancel]

/-- Settles O22: the top entry is taken, or none is there to take. -/
theorem returnContinuesAfterTheSavedCall : Obligations.ReturnContinuesAfterTheSavedCall := by
  refine fun s => ⟨fun k w hsp hw => ?saved, fun hempty => ?empty⟩
  case saved => exact ⟨_, exec_ret_saved hsp hw, rfl, rfl, rfl, { keeps_setPc s s.pc with stack := nofun }⟩
  case empty =>
    have hc : Instr.ret.cause s = some .stackUnderflow := if_pos hempty
    exact ⟨_, exec_of_cause hc, rfl, rfl, rfl, raise_keeps ..⟩

/-! ### call (41_flow.md R123) -/

theorem effect_call_sp {s : State} (nnn : BitVec 12) (hroom : s.sp.val < 16) :
    ((Instr.call nnn).effect s).sp.val = s.sp.val + 1 := by
  simp only [Instr.effect, setPc_sp, Fin.val_add]
  omega

theorem effect_call_stack_at_depth {s : State} (nnn : BitVec 12) (hroom : s.sp.val < 16) :
    ((Instr.call nnn).effect s).stack[s.sp.val]? = some s.pc :=
  Vector.getElem?_setIfInBounds_self_of_lt hroom

theorem effect_call_stack_elsewhere (s : State) (nnn : BitVec 12) {k : Nat} (hk : k ≠ s.sp.val) :
    ((Instr.call nnn).effect s).stack[k]? = s.stack[k]? :=
  Vector.getElem?_setIfInBounds_ne hk.symm

/-- Settles O23: the call's address is pushed, or there is no room for it. -/
theorem callSavesItsOwnAddress : Obligations.CallSavesItsOwnAddress := by
  refine fun s nnn => ⟨fun hroom => ?room, fun hfull => ?full⟩
  case room =>
    have hc : (Instr.call nnn).cause s = none := if_neg (Nat.ne_of_lt hroom)
    exact ⟨_, exec_of_no_cause hc, rfl, effect_call_sp nnn hroom, effect_call_stack_at_depth nnn hroom,
      fun _ => effect_call_stack_elsewhere s nnn, effect_keeps (.call nnn) s⟩
  case full =>
    have hc : (Instr.call nnn).cause s = some .stackOverflow := if_pos hfull
    exact ⟨_, exec_of_cause hc, rfl, rfl, rfl, raise_keeps ..⟩

/-- Settles O24: the return finds on top the address the call saved there. -/
theorem returnAfterCallResumesAfterTheCall : Obligations.ReturnAfterCallResumesAfterTheCall := by
  intro s nnn hroom
  obtain ⟨t, hcall, -, hpushed, hsaved, hothers, hkeepsCall⟩ := (callSavesItsOwnAddress s nnn).1 hroom
  obtain ⟨u, hret, hpc, hpopped, hstack, hkeepsRet⟩ := (returnContinuesAfterTheSavedCall t).1 _ _ hpushed hsaved
  refine ⟨t, u, hcall, hret, hpc, Fin.ext hpopped, fun k hk => ?_, hkeepsCall.trans hkeepsRet⟩
  rw [hstack, hothers k (Nat.ne_of_lt hk)]

/-! ### The jumps (41_flow.md R121, R122, R124) -/

/-- The target of a jump-with-offset is the plain sum: 12 bits and 8 bits do not overflow 16. -/
theorem offsetTarget_toNat (s : State) (nnn : BitVec 12) : (s.offsetTarget nnn).toNat = nnn.toNat + (s.reg 0).toNat := by
  simp only [State.offsetTarget, addr16, zext16, BitVec.truncate_eq_setWidth]
  bv_omega

/-- Settles O25. -/
theorem jumpsWriteOnlyThePc : Obligations.JumpsWriteOnlyThePc := by
  refine fun s nnn => ⟨⟨_, rfl, rfl, keeps_setPc s _⟩, ⟨_, rfl, rfl, keeps_setPc s _⟩,
    ⟨_, rfl, offsetTarget_toNat s nnn, keeps_setPc s _⟩, fun hself => ?_⟩
  calc exec (.jump nnn) s
    _ = .next (s.setPc s.pc) := by rw [hself]; rfl
    _ = .next s := rfl

end Sys2Proof.Machine
end

section
/-! The conditional skips: `pc` moves by 4 or 2 with the condition of each, and the key skips fault on a value that names no
key. -/

namespace Sys2Proof.Machine

/-- A skip on a test that decides `p` ends at `pc0 + 4` when `p` holds, at `pc0 + 2` otherwise (42_skips.md R129). -/
theorem skipWhen_pc_of_iff (s : State) {c : Bool} {p : Prop} [Decidable p] (hc : c = true ↔ p) :
    (s.skipWhen c).pc = if p then s.pc + 4 else s.pc + 2 := by
  rw [skipWhen_pc, apply_ite (s.pc + ·), if_congr hc rfl rfl]

theorem keeps_skipWhen (s : State) (c : Bool) : Keeps Changes.pcOnly s (s.skipWhen c) := keeps_setPc s _

/-! ### The skips on registers (42_skips.md R130 to R133) -/

/-- Settles O26: the test of each skip decides its condition. -/
theorem registerSkipsMoveOnlyThePc : Obligations.RegisterSkipsMoveOnlyThePc := by
  refine fun s x y nn => ⟨⟨_, rfl, ?immediate, keeps_skipWhen s _⟩, ⟨_, rfl, ?notImmediate, keeps_skipWhen s _⟩,
    ⟨_, rfl, ?registers, keeps_skipWhen s _⟩, ⟨_, rfl, ?notRegisters, keeps_skipWhen s _⟩⟩
  case immediate | registers => exact skipWhen_pc_of_iff s beq_iff_eq
  case notImmediate | notRegisters => exact skipWhen_pc_of_iff s bne_iff_ne

/-! ### The skips on keys (42_skips.md R134, R135) -/

theorem keyNamed_of_toNat {s : State} {b : Byte} {k : Reg} (h : b.toNat = k.val) : s.keyNamed b = s.key k := by
  rw [State.keyNamed, h, Fin.ofNat_val_eq_self]

/-- Neither key skip has a cause while `V[x]` names a key. -/
theorem keySkip_cause_none {s : State} {x k : Reg} (h : (s.reg x).toNat = k.val) :
    (Instr.skipIfKeyPressed x).cause s = none ∧ (Instr.skipIfKeyNotPressed x).cause s = none := by
  have hin : ¬ 15 < (s.reg x).toNat := by omega
  exact ⟨if_neg hin, if_neg hin⟩

/-- Both key skips have the same cause when `V[x]` names no key (60_exceptions.md R205). -/
theorem keySkip_cause_some {s : State} {x : Reg} (h : 15 < (s.reg x).toNat) {i : Instr}
    (hi : i ∈ [Instr.skipIfKeyPressed x, Instr.skipIfKeyNotPressed x]) :
    i.cause s = some (.keyIndexOutOfRange (s.reg x)) := by
  obtain rfl | rfl := List.mem_pair.1 hi <;> exact if_pos h

/-- Settles O27: the key that `V[x]` names is tested, or the fault is taken as there is none. -/
theorem keySkipsTestTheNamedKey : Obligations.KeySkipsTestTheNamedKey := by
  refine fun s x => ⟨fun k hk => ?named, fun hout i hi => ?unnamed⟩
  case named =>
    obtain ⟨hpressed, hnotPressed⟩ := keySkip_cause_none hk
    have hkey := keyNamed_of_toNat (s := s) hk
    refine ⟨⟨_, exec_of_no_cause hpressed, skipWhen_pc_of_iff s ?_, keeps_skipWhen s _⟩,
      ⟨_, exec_of_no_cause hnotPressed, skipWhen_pc_of_iff s ?_, keeps_skipWhen s _⟩⟩
    · rw [hkey]
    · rw [hkey, Bool.not_eq_true']
  case unnamed => exact ⟨_, exec_of_cause (keySkip_cause_some hout hi), rfl, rfl, rfl, raise_keeps ..⟩

end Sys2Proof.Machine
end

section
/-! The instructions on registers (43_alu.md): those that write one register hold the value there; the flag writers write the flag
last, so `V[15]` holds it whichever register takes the result. -/

namespace Sys2Proof.Machine

/-! ### One register written (43_alu.md R142 to R147, R154) -/

theorem reg_setReg_self (s : State) (x : Reg) (b : Byte) : (s.setReg x b).reg x = b := by
  rw [reg_setReg, if_pos rfl]

/-- Settles O28: the sum of two bytes is taken modulo 256. -/
theorem immediateFormsWriteOneRegister : Obligations.ImmediateFormsWriteOneRegister := by
  refine fun s x nn => ⟨⟨_, rfl, reg_setReg_self s x _, rfl, keeps_setReg s x _⟩, ⟨_, rfl, ?sum, rfl, keeps_setReg s x _⟩⟩
  case sum => rw [reg_advance, reg_setReg_self, BitVec.toNat_add]

/-- Settles O29: a bit of each combination is the combination of the two bits. -/
theorem copyAndLogicWriteOneRegister : Obligations.CopyAndLogicWriteOneRegister := by
  refine fun s x y => ⟨⟨_, rfl, reg_setReg_self s x _, rfl, keeps_setReg s x _⟩,
    ⟨_, rfl, fun k => ?or, rfl, keeps_setReg s x _⟩, ⟨_, rfl, fun k => ?and, rfl, keeps_setReg s x _⟩,
    ⟨_, rfl, fun k => ?xor, rfl, keeps_setReg s x _⟩⟩ <;> rw [reg_advance, reg_setReg_self]
  case or => exact BitVec.getLsbD_or
  case and => exact BitVec.getLsbD_and
  case xor => exact BitVec.getLsbD_xor

theorem reg_effect_randomAnd (s : State) (x : Reg) (nn : Byte) :
    ((Instr.randomAnd x nn).effect s).reg x = Config.randomByte s.draws &&& nn := reg_setReg_self s x _

/-- Settles O33: masking the drawn byte once more changes nothing. -/
theorem randomAndMasksAFreeByte : Obligations.RandomAndMasksAFreeByte := by
  refine fun s x nn => ⟨(Instr.randomAnd x nn).effect s, rfl, reg_effect_randomAnd s x nn, ?masked, rfl, rfl,
    effect_keeps (.randomAnd x nn) s⟩
  case masked => rw [reg_effect_randomAnd, BitVec.and_assoc, BitVec.and_self]

/-! ### A result and its flag (43_alu.md R140, R141) -/

theorem reg_flag_setResultAndFlag (s : State) (x : Reg) (b : Byte) (f : Bool) :
    (s.setResultAndFlag x b f).advance.reg 15 = flagByte f := by
  rw [reg_advance, reg_setResultAndFlag, if_pos rfl]

theorem reg_result_setResultAndFlag (s : State) {x : Reg} (hx : x ≠ 15) (b : Byte) (f : Bool) :
    (s.setResultAndFlag x b f).advance.reg x = b := by
  rw [reg_advance, reg_setResultAndFlag, if_neg hx, if_pos rfl]

theorem flagByte_decide (p : Prop) [Decidable p] : flagByte (decide p) = if p then 1 else 0 :=
  if_congr decide_eq_true_iff rfl rfl

theorem flagByte_toNat (f : Bool) : (flagByte f).toNat = f.toNat := by cases f <;> rfl

/-- Settles O30: the carry is the flag of the sum not reduced, the sum reduced modulo 256 goes to any other register. -/
theorem addRegistersSetsSumAndCarry : Obligations.AddRegistersSetsSumAndCarry := by
  refine fun s x y => ⟨_, rfl, ?carry, fun hx => ?sum, rfl, keeps_setResultAndFlag s x _ _⟩
  case carry => rw [reg_flag_setResultAndFlag, carryOut, flagByte_decide]
  case sum => rw [reg_result_setResultAndFlag s hx, BitVec.toNat_add]

/-- The difference of two bytes is that of the integers modulo 256. -/
theorem byte_sub_toNat (a b : Byte) : ((a - b).toNat : Int) = (a.toNat - b.toNat : Int) % 256 := by
  rw [BitVec.toNat_sub]
  omega

/-- Settles O31: both are one subtraction, with the two registers exchanged. -/
theorem subtractionsSetDifferenceAndNoBorrow : Obligations.SubtractionsSetDifferenceAndNoBorrow := by
  refine fun s x y => ⟨⟨_, rfl, ?flag, fun hx => ?difference, rfl, keeps_setResultAndFlag s x _ _⟩,
    ⟨_, rfl, ?flagReversed, fun hx => ?differenceReversed, rfl, keeps_setResultAndFlag s x _ _⟩⟩
  case flag | flagReversed => rw [reg_flag_setResultAndFlag, noBorrow, flagByte_decide]
  case difference | differenceReversed => rw [reg_result_setResultAndFlag s hx, byte_sub_toNat]

/-! ### Shifts (43_alu.md R150, R152) -/

theorem shiftedOutLow_toNat (a : Byte) : (shiftedOutLow a).toNat = a.toNat % 2 := by
  rw [shiftedOutLow, BitVec.getLsbD, Nat.toNat_testBit, Nat.pow_zero, Nat.div_one]

/-- Nothing stands above bit 7 of a byte. -/
theorem shiftedOutHigh_toNat (a : Byte) : (shiftedOutHigh a).toNat = a.toNat / 128 := by
  rw [shiftedOutHigh, BitVec.getLsbD, Nat.toNat_testBit]
  omega

theorem byte_shiftRight_toNat (a : Byte) : (a >>> 1).toNat = a.toNat / 2 := by
  rw [BitVec.toNat_ushiftRight, Nat.shiftRight_one]

theorem byte_shiftLeft_toNat (a : Byte) : (a <<< 1).toNat = 2 * a.toNat % 256 := by
  rw [BitVec.toNat_shiftLeft, Nat.shiftLeft_eq, Nat.pow_one, Nat.mul_comm]

/-- Settles O32: the bit moved out and the bits left, both as numbers. -/
theorem shiftsMoveOneBitIntoTheFlag : Obligations.ShiftsMoveOneBitIntoTheFlag := by
  refine fun s x => ⟨⟨_, rfl, ?low, fun hx => ?half, rfl, keeps_setResultAndFlag s x _ _⟩,
    ⟨_, rfl, ?high, fun hx => ?double, rfl, keeps_setResultAndFlag s x _ _⟩⟩
  case low => rw [reg_flag_setResultAndFlag, flagByte_toNat, shiftedOutLow_toNat]
  case half => rw [reg_result_setResultAndFlag s hx, byte_shiftRight_toNat]
  case high => rw [reg_flag_setResultAndFlag, flagByte_toNat, shiftedOutHigh_toNat]
  case double => rw [reg_result_setResultAndFlag s hx, byte_shiftLeft_toNat]

end Sys2Proof.Machine
end

section
/-! Index and memory (44_index_memory.md): the values that reach `I`, the bytes stored from `I` upward and loaded from there, and
the one form of stop when an address lies above 4095. -/

namespace Sys2Proof.Machine

/-! ### A stop at an address (60_exceptions.md R204, R212) -/

/-- An instruction whose cause is an address out of range stops and latches the access kind and the address. -/
theorem exec_addressOutOfRange {i : Instr} {s : State} {k : AccessKind} {a : Nat}
    (hc : i.cause s = some (.addressOutOfRange k a)) : ∃ t, exec i s = .next t ∧ t.pc = s.pc ∧ t.run = .stopped ∧
      t.diag = { valid := true, cause := 4, word := encode i, pc := s.pc, kind := k.code, info := BitVec.ofNat 16 a } ∧
      Keeps Changes.fault s t :=
  ⟨_, exec_of_cause hc, rfl, rfl, rfl, raise_keeps ..⟩

/-- From an `I` inside memory, the lowest address above memory in a range that leaves it is 4096. -/
theorem exec_rangeOutOfMemory {i : Instr} {s : State} {k : AccessKind} (hindex : s.index ≤ 4095)
    (hc : i.cause s = some (.addressOutOfRange k (max s.index 4096))) : ∃ t, exec i s = .next t ∧ t.pc = s.pc ∧
      t.run = .stopped ∧
      t.diag = { valid := true, cause := 4, word := encode i, pc := s.pc, kind := k.code, info := 4096 } ∧
      Keeps Changes.fault s t := by
  rw [Nat.max_eq_right (Nat.le_succ_of_le hindex)] at hc
  exact exec_addressOutOfRange hc

/-! ### The index register (44_index_memory.md R160 to R162) -/

theorem addr16_toNat (nnn : BitVec 12) : (addr16 nnn).toNat = nnn.toNat :=
  BitVec.toNat_setWidth_of_le (by decide)

/-- Five times a byte does not overflow 16 bits. -/
theorem spriteCharAddress_toNat (b : Byte) : (spriteCharAddress b).toNat = b.toNat * 5 := by
  simp only [spriteCharAddress, zext16, BitVec.truncate_eq_setWidth, Config.glyphBytes]
  bv_omega

/-- Settles O35: neither value exceeds 16 bits. -/
theorem indexIsSetToAddressOrGlyph : Obligations.IndexIsSetToAddressOrGlyph :=
  fun s x nnn => ⟨⟨_, rfl, addr16_toNat nnn, rfl, keeps_setIndex s _⟩,
    ⟨_, rfl, spriteCharAddress_toNat (s.reg x), rfl, keeps_setIndex s _⟩⟩

/-- Settles O36: a sum of at most 4095 fits `I`, a greater one is the cause. -/
theorem addToIndexAddsOrFaults : Obligations.AddToIndexAddsOrFaults := by
  refine fun s x => ⟨fun hin => ?adds, fun hout => ?faults⟩
  case adds =>
    have hc : (Instr.addToIndex x).cause s = none := if_neg (Nat.not_lt.2 hin)
    have hsum : (BitVec.ofNat 16 (s.indexSum x)).toNat = s.i.toNat + (s.reg x).toNat :=
      Nat.mod_eq_of_lt (Nat.lt_of_le_of_lt hin (by decide))
    exact ⟨_, exec_of_no_cause hc, hsum, rfl, keeps_setIndex s _⟩
  case faults =>
    have hc : (Instr.addToIndex x).cause s = some (.addressOutOfRange .index (s.i.toNat + (s.reg x).toNat)) := if_pos hout
    exact exec_addressOutOfRange hc

/-! ### store-bcd (44_index_memory.md R163) -/

/-- A stored byte is read back at its own offset. -/
theorem Memory.read_writeBytes_at {m : Memory} {a k : Nat} {bs : List Byte} {b : Byte} (hm : m.wf = true)
    (h : a + bs.length ≤ 4096) (hb : bs[k]? = some b) : (m.writeBytes a bs).read (a + k) = b := by
  rw [Memory.read_writeBytes hm (.inr h), if_pos (Nat.le_add_right a k), Nat.add_sub_cancel_left, hb, Option.getD_some]

/-- What a store-bcd stores, digit by digit. -/
theorem read_effect_storeBcd {s : State} {x : Reg} {k n : Nat} (hm : s.mem.wf = true)
    (hc : (Instr.storeBcd x).cause s = none) (hn : n < 256) (hk : (bcdDigits (s.reg x))[k]? = some (BitVec.ofNat 8 n)) :
    (((Instr.storeBcd x).effect s).mem.read (s.index + k)).toNat = n := by
  have hread : ((Instr.storeBcd x).effect s).mem.read (s.index + k) = BitVec.ofNat 8 n :=
    Memory.read_writeBytes_at hm (index_le_of_storeBcd hc) hk
  rw [hread, BitVec.toNat_ofNat, Nat.mod_eq_of_lt hn]

/-- Settles O37: three digits fit a byte each, or the last of them has no place. -/
theorem storeBcdStoresThreeDigits : Obligations.StoreBcdStoresThreeDigits := by
  refine fun s x hm => ⟨fun hin => ?stores, fun hindex hout => ?faults⟩
  case stores =>
    have hc : (Instr.storeBcd x).cause s = none := if_neg (Nat.not_lt.2 hin)
    exact ⟨_, exec_of_no_cause hc, read_effect_storeBcd (k := 0) hm hc (by omega) rfl,
      read_effect_storeBcd (k := 1) hm hc (by omega) rfl, read_effect_storeBcd (k := 2) hm hc (by omega) rfl, rfl,
      effect_mem_wf hc hm, effect_keeps (.storeBcd x) s⟩
  case faults =>
    have hc : (Instr.storeBcd x).cause s = some (.addressOutOfRange .write (max s.index 4096)) := if_pos hout
    exact exec_rangeOutOfMemory hindex hc

/-! ### register-dump and register-load (44_index_memory.md R164, R165) -/

/-- Settles O38: the range is stored whole, or its last byte has no place. -/
theorem registerDumpStoresTheRange : Obligations.RegisterDumpStoresTheRange := by
  refine fun s x hm => ⟨fun hin => ?stores, fun hindex hout => ?faults⟩
  case stores =>
    have hc : (Instr.registerDump x).cause s = none := if_neg (Nat.not_lt.2 hin)
    exact ⟨_, exec_of_no_cause hc, fun k => read_effect_registerDump hm hc, rfl, effect_mem_wf hc hm,
      effect_keeps (.registerDump x) s⟩
  case faults =>
    have hc : (Instr.registerDump x).cause s = some (.addressOutOfRange .write (max s.index 4096)) := if_pos hout
    exact exec_rangeOutOfMemory hindex hc

/-- What a register-load loads: each register of its range from its own offset (44_index_memory.md R165). -/
theorem reg_effect_registerLoad {s : State} {x k : Reg} (hk : k ≤ x) :
    ((Instr.registerLoad x).effect s).reg k = s.mem.read (s.index + k.val) := by
  change (s.loadedRegs x)[k.val] = _
  simp only [State.loadedRegs, Vector.getElem_ofFn, if_pos hk]

/-- Settles O39: the range is loaded whole, or its last byte lies above memory. -/
theorem registerLoadFillsTheRange : Obligations.RegisterLoadFillsTheRange := by
  refine fun s x => ⟨fun hin => ?loads, fun hindex hout => ?faults⟩
  case loads =>
    have hc : (Instr.registerLoad x).cause s = none := if_neg (Nat.not_lt.2 hin)
    exact ⟨_, exec_of_no_cause hc, fun k => reg_effect_registerLoad, rfl, effect_keeps (.registerLoad x) s⟩
  case faults =>
    have hc : (Instr.registerLoad x).cause s = some (.addressOutOfRange .read (max s.index 4096)) := if_pos hout
    exact exec_rangeOutOfMemory hindex hc

end Sys2Proof.Machine
end

section
/-! Timers and keys (45_timers_keys.md): one byte copied between a register and a timer; a wait-for-key in the cycle that fetches
it, and the later cycles of the machine it leaves waiting. -/

namespace Sys2Proof.Machine

/-- Settles O41. -/
theorem timerInstructionsCopyOneByte : Obligations.TimerInstructionsCopyOneByte :=
  fun s x => ⟨⟨_, rfl, reg_setReg_self s x s.dt, rfl, keeps_setReg s x s.dt⟩,
    ⟨_, rfl, rfl, rfl, effect_keeps (.setDelayTimer x) s⟩, ⟨_, rfl, rfl, rfl, effect_keeps (.setSoundTimer x) s⟩⟩

/-! ### wait-for-key (45_timers_keys.md R173) -/

/-- The machine that awaits a key for `V[x]`. -/
def State.suspended (s : State) (x : Reg) : State := { s with waitX := x, run := .awaitingKey }

/-- With no key pressed a wait-for-key suspends the machine. -/
theorem exec_waitForKey_of_noKey {s : State} (x : Reg) (h : s.noKey) : exec (.waitForKey x) s = .next (s.suspended x) := by
  simp only [exec, execWaitForKey, takeKey_none x h, State.suspended]

theorem keeps_suspended (s : State) (x : Reg) : Keeps { run := true, waitX := true } s (s.suspended x) :=
  { keeps_setPc s s.pc with run := nofun, waitX := nofun }

/-- With a key pressed a wait-for-key completes at once. -/
theorem exec_waitForKey_of_key {s : State} (x : Reg) (h : ¬ s.noKey) : ∃ k : Reg, s.key k = true ∧
    exec (.waitForKey x) s = .next { (s.setReg x (BitVec.ofNat 8 k.val)).advance with draws := s.draws + 1 } := by
  obtain ⟨k, hk, htake⟩ := takeKey_some x h
  exact ⟨k, hk, by simp only [exec, execWaitForKey, htake]⟩

/-- Settles O42: the first cycle completes or suspends; with the core alone, each later one is the poll of a waiting machine. -/
theorem waitForKeyCompletesOrSuspends : Obligations.WaitForKeyCompletesOrSuspends := by
  refine fun s x => ⟨fun hkey => ?completes, fun hnone => ⟨s.suspended x, exec_waitForKey_of_noKey x hnone, rfl, rfl, rfl, rfl,
    keeps_suspended s x, ?later⟩⟩
  case completes =>
    obtain ⟨k, hk, hexec⟩ := exec_waitForKey_of_key x hkey
    exact ⟨_, k, hexec, hk, reg_setReg_self s x _, rfl, keeps_setReg_draws s x _ _⟩
  case later =>
    intro ks later hlater
    have hrun : later.run = .awaitingKey := by rw [hlater]; rfl
    have halone : later.coreAlone := by rw [hlater]; exact ⟨rfl, rfl⟩
    obtain ⟨hwaits, hends⟩ := waitingMachinePollsTheKeys later later hrun (nextTurn_of_coreAlone halone)
    subst hlater
    refine ⟨fun hnone' => (hwaits hnone').1, fun hkey => ?_⟩
    obtain ⟨u, k, hstep, hk, hreg, hpc, hrun', -, hkeeps⟩ := hends hkey
    exact ⟨u, k, hstep, hk, hreg, hpc, hrun', hkeeps⟩

end Sys2Proof.Machine
end

section
/-! Display (46_display.md): which cells a draw-sprite toggles and when it sets the flag, the sprite of no rows, a sprite drawn
twice, and the edge policies for a sprite that stays on the screen. -/

namespace Sys2Proof.Machine

/-- Settles O43. -/
theorem clearScreenClearsEveryCell : Obligations.ClearScreenClearsEveryCell :=
  fun s => ⟨_, rfl, pixel_clear, rfl, effect_keeps .clearScreen s⟩

/-! ### The cells drawn over and the flag (46_display.md R183, R185) -/

/-- A draw-sprite without a cause draws over a list of distinct cells, those the sprite covers. -/
theorem drawn_eq_composite {s : State} {x y : Reg} {n : Fin 16} (h : (Instr.drawSprite x y n).cause s = none) :
    ∃ ps : List Pixel, ps.Nodup ∧ (∀ p, p ∈ ps ↔ s.spriteCovers (s.reg x).toNat (s.reg y).toNat n.val p) ∧
      s.drawn (s.reg x) (s.reg y) n.val = composite s.fb ps := by
  obtain ⟨hrange, hedge⟩ := drawSprite_cause_none h
  obtain ⟨ps, hnodup, hcovers, hps, -⟩ := drawAt_ok (Nat.le_of_lt_succ n.isLt) hrange hedge
  exact ⟨ps, hnodup, hcovers, by rw [State.drawn, hps, Option.getD_some]⟩

theorem pixel_effect_drawSprite_of_covered {s : State} {x y : Reg} {n : Fin 16} {p : Pixel}
    (h : (Instr.drawSprite x y n).cause s = none) (hp : s.spriteCovers (s.reg x).toNat (s.reg y).toNat n.val p) :
    ((Instr.drawSprite x y n).effect s).fb.pixel p = !s.fb.pixel p := by
  obtain ⟨ps, hnodup, hcovers, hdrawn⟩ := drawn_eq_composite h
  rw [Instr.effect, advance_fb, setFlag_fb, hdrawn, pixel_composite _ _ hnodup, if_pos ((hcovers p).2 hp)]

theorem pixel_effect_drawSprite_of_not_covered {s : State} {x y : Reg} {n : Fin 16} {p : Pixel}
    (h : (Instr.drawSprite x y n).cause s = none) (hp : ¬ s.spriteCovers (s.reg x).toNat (s.reg y).toNat n.val p) :
    ((Instr.drawSprite x y n).effect s).fb.pixel p = s.fb.pixel p := by
  obtain ⟨ps, hnodup, hcovers, hdrawn⟩ := drawn_eq_composite h
  rw [Instr.effect, advance_fb, setFlag_fb, hdrawn, pixel_composite _ _ hnodup, if_neg (mt (hcovers p).1 hp)]

theorem flagByte_eq_one_iff {f : Bool} : flagByte f = 1 ↔ f = true := by cases f <;> decide

theorem flag_effect_drawSprite (s : State) (x y : Reg) (n : Fin 16) :
    ((Instr.drawSprite x y n).effect s).reg 15 = flagByte (s.drawn (s.reg x) (s.reg y) n.val).2 := by
  rw [Instr.effect, reg_advance, reg_setFlag, if_pos rfl]

theorem flag_effect_drawSprite_zero_or_one (s : State) (x y : Reg) (n : Fin 16) :
    ((Instr.drawSprite x y n).effect s).reg 15 = 0 ∨ ((Instr.drawSprite x y n).effect s).reg 15 = 1 := by
  rw [flag_effect_drawSprite]
  exact flagByte_zero_or_one _

theorem flag_effect_drawSprite_eq_one_iff {s : State} {x y : Reg} {n : Fin 16}
    (h : (Instr.drawSprite x y n).cause s = none) : ((Instr.drawSprite x y n).effect s).reg 15 = 1 ↔
      ∃ p, s.spriteCovers (s.reg x).toNat (s.reg y).toNat n.val p ∧ s.fb.pixel p = true := by
  obtain ⟨ps, hnodup, hcovers, hdrawn⟩ := drawn_eq_composite h
  rw [flag_effect_drawSprite, flagByte_eq_one_iff, hdrawn, collision_composite _ _ hnodup, List.any_eq_true]
  exact exists_congr fun p => and_congr_left fun _ => hcovers p

/-- Settles O44: the flag is 0 or 1, and 1 exactly when a covered cell was set. -/
theorem drawSpriteTogglesTheCoveredCells : Obligations.DrawSpriteTogglesTheCoveredCells := by
  refine fun s x y n h => ⟨_, exec_of_no_cause h, fun p => pixel_effect_drawSprite_of_covered h,
    fun p => pixel_effect_drawSprite_of_not_covered h, (flag_effect_drawSprite_eq_one_iff h).2, fun hclear => ?noCollision, rfl,
    effect_keeps (.drawSprite x y n) s⟩
  case noCollision =>
    refine (flag_effect_drawSprite_zero_or_one s x y n).resolve_right fun hone => ?_
    obtain ⟨p, hp, hset⟩ := (flag_effect_drawSprite_eq_one_iff h).1 hone
    exact absurd hset (Bool.eq_false_iff.1 (hclear p hp))

/-! ### A sprite of no rows (46_display.md R183) -/

theorem cause_drawSprite_noRows (s : State) (x y : Reg) : (Instr.drawSprite x y 0).cause s = none := by
  simp [Instr.cause, State.spriteLeavesScreen]

/-- No policy makes anything of no targets. -/
theorem drawn_noRows (s : State) (vx vy : Byte) : s.drawn vx vy 0 = (s.fb, false) := by
  rw [State.drawn]
  cases s.drawEdge <;> rfl

theorem effect_drawSprite_noRows (s : State) (x y : Reg) :
    (Instr.drawSprite x y 0).effect s = (s.setFlag false).advance := by
  rw [Instr.effect, Fin.val_zero, drawn_noRows]

/-- Settles O46. -/
theorem spriteOfNoRowsOnlyClearsTheFlag : Obligations.SpriteOfNoRowsOnlyClearsTheFlag := by
  intro s x y
  rw [exec_of_no_cause (cause_drawSprite_noRows s x y), effect_drawSprite_noRows]
  exact ⟨_, rfl, reg_setReg_self s 15 _, rfl, rfl, keeps_setReg s 15 _⟩

/-! ### A sprite drawn twice (46_display.md R186) -/

/-- The covered cells that are set after a draw are the cells it has set. -/
theorem covered_and_set_iff {s : State} {x y : Reg} {n : Fin 16} (h : (Instr.drawSprite x y n).cause s = none) (p : Pixel) :
    (s.spriteCovers (s.reg x).toNat (s.reg y).toNat n.val p ∧ ((Instr.drawSprite x y n).effect s).fb.pixel p = true) ↔
      s.fb.pixel p = false ∧ ((Instr.drawSprite x y n).effect s).fb.pixel p = true := by
  refine and_congr_left fun hset => ?_
  by_cases hp : s.spriteCovers (s.reg x).toNat (s.reg y).toNat n.val p
  · rw [pixel_effect_drawSprite_of_covered h hp, Bool.not_eq_true'] at hset
    exact iff_of_true hp hset
  · rw [pixel_effect_drawSprite_of_not_covered h hp] at hset
    exact iff_of_false hp fun hclear => Bool.false_ne_true (hclear.symm.trans hset)

section
variable {s : State} {x y : Reg} {n : Fin 16} (h : (Instr.drawSprite x y n).cause s = none)
  (hx : ((Instr.drawSprite x y n).effect s).reg x = s.reg x) (hy : ((Instr.drawSprite x y n).effect s).reg y = s.reg y)
include hx hy

/-- A draw changes neither the sprite nor the policy: from the same origin the same cells are covered. -/
theorem spriteCovers_effect_drawSprite {p : Pixel} :
    ((Instr.drawSprite x y n).effect s).spriteCovers (((Instr.drawSprite x y n).effect s).reg x).toNat
      (((Instr.drawSprite x y n).effect s).reg y).toNat n.val p ↔
    s.spriteCovers (s.reg x).toNat (s.reg y).toNat n.val p := by
  rw [hx, hy]
  rfl

include h

/-- From the same origin the same draw raises nothing again. -/
theorem cause_effect_drawSprite : (Instr.drawSprite x y n).cause ((Instr.drawSprite x y n).effect s) = none := by
  rw [← h]
  simp only [Instr.cause, hx, hy]
  rfl

/-- A covered cell is toggled twice, another cell not at all. -/
theorem fb_effect_drawSprite_twice :
    ((Instr.drawSprite x y n).effect ((Instr.drawSprite x y n).effect s)).fb = s.fb := by
  have hagain := cause_effect_drawSprite h hx hy
  refine Framebuffer.ext_pixel fun p => ?_
  by_cases hp : s.spriteCovers (s.reg x).toNat (s.reg y).toNat n.val p
  · rw [pixel_effect_drawSprite_of_covered hagain ((spriteCovers_effect_drawSprite hx hy).2 hp),
      pixel_effect_drawSprite_of_covered h hp, Bool.not_not]
  · rw [pixel_effect_drawSprite_of_not_covered hagain (mt (spriteCovers_effect_drawSprite hx hy).1 hp),
      pixel_effect_drawSprite_of_not_covered h hp]

theorem flag_effect_drawSprite_twice :
    ((Instr.drawSprite x y n).effect ((Instr.drawSprite x y n).effect s)).reg 15 = 1 ↔
      ∃ p, s.fb.pixel p = false ∧ ((Instr.drawSprite x y n).effect s).fb.pixel p = true := by
  rw [flag_effect_drawSprite_eq_one_iff (cause_effect_drawSprite h hx hy)]
  exact exists_congr fun p =>
    (and_congr_left' (spriteCovers_effect_drawSprite hx hy)).trans (covered_and_set_iff h p)

end

/-- Settles O47. -/
theorem drawingTwiceRestoresTheScreen : Obligations.DrawingTwiceRestoresTheScreen :=
  fun _ x y n h => ⟨_, exec_of_no_cause h, fun hx hy => ⟨_, exec_of_no_cause (cause_effect_drawSprite h hx hy),
    fb_effect_drawSprite_twice h hx hy, flag_effect_drawSprite_twice h hx hy, flag_effect_drawSprite_zero_or_one _ x y n⟩⟩

/-! ### The edge policies (46_display.md R184) -/

theorem onScreen_eq_some_wrapPixel {q : Nat × Nat} (h : ¬ (63 < q.1 ∨ 31 < q.2)) : onScreen q = some (wrapPixel q) := by
  have hx : q.1 % 64 = q.1 := Nat.mod_eq_of_lt (by omega)
  have hy : q.2 % 32 = q.2 := Nat.mod_eq_of_lt (by omega)
  exact onScreen_some.2 (Prod.ext hx.symm hy.symm)

/-- Of targets on the screen every policy makes the cells they name. -/
theorem edge_of_onScreen (policy : DrawEdge) {ts : List (Nat × Nat)} (h : ∀ q ∈ ts, ¬ (63 < q.1 ∨ 31 < q.2)) :
    edge policy ts = some (ts.map wrapPixel) := by
  have hcells : ts.filterMap onScreen = ts.map wrapPixel :=
    List.filterMap_eq_map_iff_forall_eq_some.2 fun q hq => onScreen_eq_some_wrapPixel (h q hq)
  cases policy with
  | wrap => rfl
  | clip => rw [edge, hcells]
  | error =>
    cases hedge : edge .error ts with
    | none =>
      obtain ⟨-, q, hq, hoff⟩ := edge_none.1 hedge
      exact absurd hoff (h q hq)
    | some ps => rw [edge_error_some hedge, hcells]

/-- A sprite that stays on the screen can raise the range of its bytes only. -/
theorem cause_drawSprite_of_onScreen {s : State} {x y : Reg} {n : Fin 16}
    (h : s.spriteLeavesScreen (s.reg x).toNat (s.reg y).toNat n.val = false) : (Instr.drawSprite x y n).cause s =
      if 0 < n.val ∧ 4095 < s.index + n.val - 1 then some (.addressOutOfRange .read (max s.index 4096)) else none := by
  have hedge : ¬ (s.drawEdge = .error ∧ s.spriteLeavesScreen (s.reg x).toNat (s.reg y).toNat n.val = true) :=
    fun hleaves => Bool.eq_false_iff.1 h hleaves.2
  rw [Instr.cause, if_neg hedge]

/-- What a sprite that stays on the screen draws does not depend on the policy. -/
theorem drawn_of_onScreen {s : State} {vx vy : Byte} {n : Nat} (h : s.spriteLeavesScreen vx.toNat vy.toNat n = false) :
    s.drawn vx vy n = composite s.fb ((targets vx.toNat vy.toNat (s.spriteRows n)).map wrapPixel) := by
  have hstays : ∀ q ∈ targets vx.toNat vy.toNat (s.spriteRows n), ¬ (63 < q.1 ∨ 31 < q.2) := fun q hq hoff =>
    Bool.eq_false_iff.1 h (spriteLeavesScreen_iff.2 ⟨q, hq, hoff⟩)
  rw [State.drawn, edge_of_onScreen s.drawEdge hstays, Option.getD_some]

/-- The same machine under another edge policy. -/
def State.withDrawEdge (s : State) (policy : DrawEdge) : State := { s with drawEdge := policy }

section
variable {s : State} {x y : Reg} {n : Fin 16} (policy : DrawEdge)
  (h : s.spriteLeavesScreen (s.reg x).toNat (s.reg y).toNat n.val = false)
include h

theorem cause_drawSprite_withDrawEdge :
    (Instr.drawSprite x y n).cause (s.withDrawEdge policy) = (Instr.drawSprite x y n).cause s := by
  rw [cause_drawSprite_of_onScreen h]
  exact cause_drawSprite_of_onScreen (s := s.withDrawEdge policy) h

theorem drawn_withDrawEdge :
    (s.withDrawEdge policy).drawn (s.reg x) (s.reg y) n.val = s.drawn (s.reg x) (s.reg y) n.val := by
  rw [drawn_of_onScreen h]
  exact drawn_of_onScreen (s := s.withDrawEdge policy) h

theorem effect_drawSprite_withDrawEdge : (Instr.drawSprite x y n).effect (s.withDrawEdge policy) =
    ((Instr.drawSprite x y n).effect s).withDrawEdge policy := by
  rw [Instr.effect, Instr.effect, ← drawn_withDrawEdge policy h]
  rfl

end

/-- Settles O48: both machines raise the same, and have the same effect where they raise nothing. -/
theorem policiesAgreeOnTheScreen : Obligations.PoliciesAgreeOnTheScreen := by
  intro s x y n policy h
  have hcause := cause_drawSprite_withDrawEdge policy h
  cases hc : (Instr.drawSprite x y n).cause s with
  | some c => exact ⟨_, exec_of_cause hc, exec_of_cause (hcause.trans hc)⟩
  | none =>
    exact ⟨_, exec_of_no_cause hc,
      (exec_of_no_cause (hcause.trans hc)).trans (congrArg _ (effect_drawSprite_withDrawEdge policy h))⟩

end Sys2Proof.Machine
end

section
/-! Exceptions (60_exceptions.md): the word that selects no instruction, the end of a wait, the two faults of draw-sprite, the
causes of the 35 instructions, and the image that the loader refuses. -/

namespace Sys2Proof.Machine

/-! ### The causes of an instruction (60_exceptions.md R204 to R208, R212) -/

/-- Settles O49: with a cause the state is the raised one, without one the effect, which only a suspending wait-for-key gives
another run state. -/
theorem instructionsRaiseExactlyTheTabledCauses : Obligations.InstructionsRaiseExactlyTheTabledCauses := by
  refine fun i s => ⟨fun c hc => exec_of_cause hc, fun hc => ⟨_, exec_of_no_cause hc, effect_diag i s, ?_⟩⟩
  rcases effect_run i s with hsame | ⟨x, -, heff⟩
  · exact .inl hsame
  · exact .inr (by rw [heff])

/-! ### The faults of draw-sprite (60_exceptions.md R206) -/

/-- Sprite bytes above 4095 are the cause, whatever the edge would make of them. -/
theorem cause_drawSprite_of_bytesOutOfRange {s : State} {n : Fin 16} (x y : Reg) (h0 : 0 < n.val)
    (hout : 4095 < s.index + n.val - 1) :
    (Instr.drawSprite x y n).cause s = some (.addressOutOfRange .read (max s.index 4096)) :=
  if_pos ⟨h0, hout⟩

/-- With its bytes in range a sprite can raise the fault at the edge only. -/
theorem cause_drawSprite_of_bytesInRange {s : State} {n : Fin 16} (x y : Reg) (hin : s.index + n.val ≤ 4096) :
    (Instr.drawSprite x y n).cause s =
      if s.drawEdge = .error ∧ s.spriteLeavesScreen (s.reg x).toNat (s.reg y).toNat n.val = true then
        some (.drawOutOfBounds (s.reg x) (s.reg y)) else none :=
  if_neg (by omega)

/-- Settles O45. -/
theorem drawSpriteFaultsDrawNothing : Obligations.DrawSpriteFaultsDrawNothing := by
  refine fun s x y n hindex => ⟨fun h0 hout => ?bytes, fun hin herror hleaves => ?edge, fun hin hpolicy => ?drawn⟩
  case bytes => exact exec_rangeOutOfMemory hindex (cause_drawSprite_of_bytesOutOfRange x y h0 hout)
  case edge =>
    have hc := (cause_drawSprite_of_bytesInRange x y hin).trans (if_pos ⟨herror, hleaves⟩)
    exact ⟨_, exec_of_cause hc, rfl, rfl, rfl, raise_keeps ..⟩
  case drawn =>
    have hc := (cause_drawSprite_of_bytesInRange x y hin).trans (if_neg fun hedge => hpolicy hedge.1)
    exact ⟨_, exec_of_no_cause hc, rfl, rfl, rfl⟩

/-! ### An unsupported word (60_exceptions.md R201) -/

theorem runCycle_of_unsupported {s : State} {w : Word} (hw : s.fetches w) (hd : ∀ i, decodeWord w ≠ .ok i) :
    s.runCycle = .next (s.raise w .unsupportedOpcode) := by
  simp only [State.runCycle, fetch_eq_ok_iff.2 hw]
  cases hdecode : decodeWord w with
  | error _ => rfl
  | ok i => exact absurd hdecode (hd i)

/-- Settles O15. -/
theorem unsupportedWordIsReportedAndStops : Obligations.UnsupportedWordIsReportedAndStops := by
  intro s u w hrun hnext hw hd
  have hstep := step_eq_runCycle hrun hnext
  obtain ⟨turns, beyond, rfl⟩ := eq_withSchedule_of_nextTurn hnext
  have hfault := runCycle_of_unsupported (s := s.withSchedule turns beyond) hw hd
  exact ⟨_, hstep.trans hfault, rfl, rfl, rfl, rfl, raise_keeps _ _ _⟩

/-! ### The end of a wait (60_exceptions.md R228) -/

/-- Taking a turn off the schedule leaves the run state. -/
theorem run_of_nextTurn {s u : State} {turn : Turn} (hnext : s.nextTurn = (turn, u)) : u.run = s.run := by
  rw [nextTurn_changes_schedule_only hnext]

/-- Settles O18: a tick and a move of the key source leave the run state, and the core's turn ends the wait only by the poll that
finds a key. -/
theorem onlyAKeyEndsTheWait : Obligations.OnlyAKeyEndsTheWait := by
  intro s t hrun hstep hends
  rcases hnext : s.nextTurn with ⟨_ | _ | ks, u⟩
  case core =>
    obtain ⟨hwaits, hcompletes⟩ := waitingMachinePollsTheKeys s u hrun hnext
    have hkey : ¬ s.noKey := fun hnone => by
      obtain rfl := Host.Outcome.next.inj ((hwaits hnone).1.symm.trans hstep)
      exact hends ((run_of_nextTurn hnext).trans hrun)
    obtain ⟨t', k, hstep', hk, hreg, hpc, hrun', -⟩ := hcompletes hkey
    obtain rfl := Host.Outcome.next.inj (hstep'.symm.trans hstep)
    exact ⟨hrun', hpc, k, hk, hreg⟩
  case tick =>
    obtain rfl := Host.Outcome.next.inj ((step_eq_tick hnext).symm.trans hstep)
    exact absurd ((run_of_nextTurn hnext).trans hrun) hends
  case keys =>
    obtain rfl := Host.Outcome.next.inj ((step_eq_setKeys hnext).symm.trans hstep)
    exact absurd ((run_of_nextTurn hnext).trans hrun) hends

/-! ### An oversized image (60_exceptions.md R207) -/

/-- Settles O8. -/
theorem oversizedImageIsRefused : Obligations.OversizedImageIsRefused :=
  fun _ _ hlen => if_neg (Nat.not_le.2 hlen)

end Sys2Proof.Machine
end

section
/-! The invariant at launch. -/

namespace Sys2Proof.Machine

/-- The edge policy and the number of random bytes drawn have no part in the invariant. -/
theorem inv_edgePolicy_draws {s : State} (hs : s.Inv) (drawEdge : DrawEdge) (draws : Nat) :
    State.Inv { s with drawEdge := drawEdge, draws := draws } :=
  ⟨hs.memCanonical, hs.index, hs.pc, hs.saved, hs.waiting, hs.stopped, hs.notStopped⟩

/-- A store in range keeps the invariant of a machine that is not waiting: a wait alone says what stands in memory. -/
theorem inv_storeBytes {s : State} {a : Nat} {bs : List Byte} (hs : s.Inv) (hrun : s.run ≠ .awaitingKey)
    (hrange : a + bs.length ≤ Config.memSize) : (s.storeBytes a bs).Inv :=
  ⟨Memory.writeBytes_wf hs.memCanonical (.inr hrange), hs.index, hs.pc, hs.saved, fun hwait => absurd hwait hrun, hs.stopped,
    hs.notStopped⟩

/-- Settles O10: the loader stores in range while the machine runs, and what may be set after it has no part in the invariant. -/
theorem launchStatesMeetTheInvariant : Obligations.LaunchStatesMeetTheInvariant := by
  rintro s ⟨image, hlen, r, hload, hs⟩
  have hrange : 0x200 + image.length ≤ Config.memSize := by simp only [Config.memSize]; omega
  have hloaded : (State.reset.storeBytes 0x200 image).Inv := inv_storeBytes resetMeetsTheInvariant nofun hrange
  obtain rfl := Host.Outcome.next.inj ((loadImage_of_le hlen State.reset).symm.trans hload)
  rw [hs]
  exact inv_outside (inv_edgePolicy_draws hloaded s.drawEdge s.draws) _ _ s.keys s.turns s.beyond

end Sys2Proof.Machine
end
